-- ==== Sys2Proof/Word.lean ====
section
/-! DEFINITION. The widths of the block's values (00_scope.md R8). Every value is unsigned (R12). -/

namespace Sys2Proof

/-- An instruction word, `WORD_BITS` = 16 (R8). -/
abbrev Word := BitVec 16

/-- A 12-bit address operand, `ADDR_BITS` (R8). -/
abbrev Addr := BitVec 12

/-- An immediate byte, `BYTE_BITS` (R8); also a byte of the walker's buffer (R41). -/
abbrev Byte := BitVec 8

/-- A nibble: a register index (`REG_BITS`) or the immediate `n` (`NIBBLE_BITS`) (R8). -/
abbrev Nibble := BitVec 4

end Sys2Proof
end

