-- ==== Sys2Proof/Syntax.lean ====
section
/-! DEFINITION. What the block reads and what it says: the 33 instructions (30_encoding.md R65 to R67), the
source's tagged decode result (10_state.md R36) and the record of output ports (10_state.md R23). -/

namespace Sys2Proof

/-- The 33 instructions, one constructor per row of the opcode table, in the order of their ids (10_state.md R26).
An instruction carries exactly the operand fields its rule names; bits its format ignores are not part of it
(30_encoding.md R62, R73). -/
inductive Instr where
  /-- R100 `SYS addr`, id 1 -/
  | sys (addr : Addr)
  /-- R101 `JP addr`, id 2 -/
  | jp (addr : Addr)
  /-- R102 `CALL addr`, id 3 -/
  | call (addr : Addr)
  /-- R103 `SE Vx,kk`, id 4 -/
  | seByte (x : Nibble) (kk : Byte)
  /-- R104 `SNE Vx,kk`, id 5 -/
  | sneByte (x : Nibble) (kk : Byte)
  /-- R105 `SE Vx,Vy`, id 6 -/
  | seReg (x y : Nibble)
  /-- R106 `LD Vx,kk`, id 7 -/
  | ldByte (x : Nibble) (kk : Byte)
  /-- R107 `ADD Vx,kk`, id 8 -/
  | addByte (x : Nibble) (kk : Byte)
  /-- R108 `SNE Vx,Vy`, id 9 -/
  | sneReg (x y : Nibble)
  /-- R109 `LD I,addr`, id 10 -/
  | ldI (addr : Addr)
  /-- R110 `JP V0,addr`, id 11 -/
  | jpV0 (addr : Addr)
  /-- R111 `RND Vx,kk`, id 12 -/
  | rnd (x : Nibble) (kk : Byte)
  /-- R112 `DRW Vx,Vy,n`, id 13 -/
  | drw (x y n : Nibble)
  /-- R120 `LD Vx,Vy`, id 14 -/
  | ldReg (x y : Nibble)
  /-- R121 `OR Vx,Vy`, id 15 -/
  | orReg (x y : Nibble)
  /-- R122 `AND Vx,Vy`, id 16 -/
  | andReg (x y : Nibble)
  /-- R123 `XOR Vx,Vy`, id 17 -/
  | xorReg (x y : Nibble)
  /-- R124 `ADD Vx,Vy`, id 18 -/
  | addReg (x y : Nibble)
  /-- R125 `SUB Vx,Vy`, id 19 -/
  | subReg (x y : Nibble)
  /-- R126 `SHR Vx`, optional `Vy`, id 20 -/
  | shr (x y : Nibble)
  /-- R127 `SUBN Vx,Vy`, id 21 -/
  | subn (x y : Nibble)
  /-- R128 `SHL Vx`, optional `Vy`, id 22 -/
  | shl (x y : Nibble)
  /-- R140 `SKP Vx`, id 23 -/
  | skp (x : Nibble)
  /-- R141 `SKNP Vx`, id 24 -/
  | sknp (x : Nibble)
  /-- R142 `LD Vx,DT`, id 25 -/
  | ldVxDt (x : Nibble)
  /-- R143 `LD Vx,K`, id 26 -/
  | ldVxK (x : Nibble)
  /-- R144 `LD DT,Vx`, id 27 -/
  | ldDtVx (x : Nibble)
  /-- R145 `LD ST,Vx`, id 28 -/
  | ldStVx (x : Nibble)
  /-- R146 `ADD I,Vx`, id 29 -/
  | addI (x : Nibble)
  /-- R147 `LD F,Vx`, id 30 -/
  | ldF (x : Nibble)
  /-- R148 `LD B,Vx`, id 31 -/
  | ldB (x : Nibble)
  /-- R149 `LD [I],Vx`, id 32 -/
  | ldMemVx (x : Nibble)
  /-- R150 `LD Vx,[I]`, id 33 -/
  | ldVxMem (x : Nibble)
deriving DecidableEq, Repr, Inhabited

/-- The 18 distinct mnemonics, in the order of their first appearance (10_state.md R27). -/
inductive Mnemonic where
  | sys | jp | call | se | sne | ld | add | rnd | drw
  | or | and | xor | sub | shr | subn | shl | skp | sknp
deriving DecidableEq, Repr

/-- The fixed pseudo-registers a RegisterAlias operand names (10_state.md R32). -/
inductive RegAlias where
  | i | v0
deriving DecidableEq, Repr

/-- The fixed operand texts a Literal operand carries (10_state.md R33); `memI` is `[I]`. -/
inductive Literal where
  | dt | k | st | f | b | memI
deriving DecidableEq, Repr

/-- The source's operand variant (10_state.md R36, R37). -/
inductive Operand where
  | address (a : Addr)
  | register (r : Nibble)
  | regAlias (a : RegAlias)
  | byte (b : Byte)
  | nibble (n : Nibble)
  | literal (l : Literal)
deriving DecidableEq, Repr

/-- An operand in its place of the ordered sequence, with its optional bit (10_state.md R29). -/
structure Arg where
  operand : Operand
  optional : Bool
deriving DecidableEq, Repr

/-- The source's decode result: a known instruction, that is a mnemonic and its ordered operands, or Unknown
(10_state.md R23, R36). -/
inductive Decoded where
  | known (mnemonic : Mnemonic) (args : List Arg)
  | unknown
deriving DecidableEq, Repr

/-- The three mask-and-compare groups of the dispatch (30_encoding.md R65 to R67). -/
inductive Stage where
  | one | two | three
deriving DecidableEq, Repr

/-- One operand slot: `op<k>_kind_o`, `op<k>_val_o`, `op<k>_opt_o` (10_state.md R29). -/
structure Slot where
  kind : BitVec 3
  val : BitVec 12
  opt : Bool
deriving DecidableEq, Repr, Inhabited

/-- The output ports of the block, all driven on every evaluation (10_state.md R23). -/
structure Outputs where
  /-- `known_o` (R24) -/
  known : Bool
  /-- `stage_o` (R25) -/
  stage : BitVec 2
  /-- `instr_id_o` (R26) -/
  instrId : BitVec 6
  /-- `mnem_o` (R27) -/
  mnem : BitVec 5
  /-- `nops_o` (R28) -/
  nops : BitVec 2
  /-- slot 0 (R29) -/
  op0 : Slot
  /-- slot 1 (R29) -/
  op1 : Slot
  /-- slot 2 (R29) -/
  op2 : Slot
  /-- `fld_top_o` (R30) -/
  fldTop : Nibble
  /-- `fld_x_o` (R30) -/
  fldX : Nibble
  /-- `fld_y_o` (R30) -/
  fldY : Nibble
  /-- `fld_n_o` (R30) -/
  fldN : Nibble
  /-- `fld_kk_o` (R30) -/
  fldKk : Byte
  /-- `fld_addr_o` (R30) -/
  fldAddr : Addr
deriving DecidableEq, Repr, Inhabited

end Sys2Proof
end

