-- ==== Sys2Proof/Config.lean ====
section
/-! DEFINITION. Parameters (00_scope.md R8, R9) and the free values the spec leaves open
(93_implementation_defined.md section 2). A free value is an opaque constant: nothing in Lean can evaluate it. -/

namespace Sys2Proof

/-- `N_STAGES` (R8). -/
def Config.nStages : Nat := 3

/-- `N_INSTR`, 13 + 9 + 11 instructions (R8; 90_conflicts.md C1). -/
def Config.nInstr : Nat := 33

/-- `MAX_OPERANDS`, the operand list of DRW (R8). -/
def Config.maxOperands : Nat := 3

/-- The number of distinct mnemonics (10_state.md R27). -/
def Config.nMnemonics : Nat := 18

/-- The settle time less one unit: open (70_reset_and_hazards.md R184; 92_eei_decisions.md D23). Free, log 7. -/
opaque Config.settleTimePred : Nat

/-- `T_DECODE`, the settle time, in units the spec leaves open: some positive number (R184). -/
def Config.tDecode : Nat := Config.settleTimePred + 1

/-- What the output ports carry in the n-th settle window sampled: any value (R184, R181). Free, log 3. -/
opaque Config.unsettled : Nat → Outputs

/-- The contents of ROM addresses 34 to 63, unconstrained (30_encoding.md R77). Free, log 8. -/
opaque Config.romUnused : BitVec 6 → BitVec 37

/-- What the mux would select for select code 7, which never occurs in the ROM (30_encoding.md R78). Free, log 8. -/
opaque Config.muxSpare : Word → BitVec 12

/-- The walker's base load address, outside the block (20_memory.md R45). -/
def Config.baseLoadAddress : Nat := 0x200

/-- The walker's minimum buffer size, "historically 512 bytes", outside the block (20_memory.md R45; 60 R162). -/
def Config.minBufferBytes : Nat := 512

end Sys2Proof
end

