-- ==== Sys2Proof/WellFormed.lean ====
section
/-! DEFINITION. Which decoded forms and which output records the spec allows. Every term of `Instr` is well formed:
its operands are bit vectors of exactly the widths of 10_state.md R36, so no check on `Instr` is left to make. The
checks here are on the two other forms, whose types admit more than the block ever says. -/

namespace Sys2Proof

/-- The operand sequences each mnemonic comes with (R100 to R112, R120 to R128, R140 to R150). -/
def Decoded.shapeOk : Mnemonic → List Operand → Bool
  | .sys, [.address _] => true
  | .jp, [.address _] => true
  | .jp, [.regAlias .v0, .address _] => true
  | .call, [.address _] => true
  | .se, [.register _, .byte _] => true
  | .se, [.register _, .register _] => true
  | .sne, [.register _, .byte _] => true
  | .sne, [.register _, .register _] => true
  | .ld, [.register _, .byte _] => true
  | .ld, [.regAlias .i, .address _] => true
  | .ld, [.register _, .register _] => true
  | .ld, [.register _, .literal l] => l == .dt || l == .k || l == .memI
  | .ld, [.literal l, .register _] => l == .dt || l == .st || l == .f || l == .b || l == .memI
  | .add, [.register _, .byte _] => true
  | .add, [.register _, .register _] => true
  | .add, [.regAlias .i, .register _] => true
  | .rnd, [.register _, .byte _] => true
  | .drw, [.register _, .register _, .nibble _] => true
  | .or, [.register _, .register _] => true
  | .and, [.register _, .register _] => true
  | .xor, [.register _, .register _] => true
  | .sub, [.register _, .register _] => true
  | .shr, [.register _, .register _] => true
  | .subn, [.register _, .register _] => true
  | .shl, [.register _, .register _] => true
  | .skp, [.register _] => true
  | .sknp, [.register _] => true
  | _, _ => false

/-- The optional bits of an operand sequence: set on the second operand of SHR and SHL, clear elsewhere (R29). -/
def Decoded.optionalOk (m : Mnemonic) (args : List Arg) : Bool :=
  args.map Arg.optional ==
    (if m == .shr || m == .shl then [false, true] else args.map fun _ => false)

/-- A decoded form the spec lists: one of the 33 forms, or Unknown. -/
def Decoded.wf : Decoded → Bool
  | .known m args => Decoded.shapeOk m (args.map Arg.operand) && Decoded.optionalOk m args
  | .unknown => true

/-- The empty slot, `(NONE, 0, 0)` (R29). -/
def Slot.none : Slot := ⟨0, 0, false⟩

/-- A slot of kind NONE carries value 0 and optional bit 0 (R29). -/
def Slot.emptyOk (s : Slot) : Bool := s.kind != 0 || s == Slot.none

/-- Kind code 7 is never output (R37). -/
def Slot.kindOk (s : Slot) : Bool := s.kind != 7

/-- The value fits the width of its kind, and an alias or literal code is one that R32 or R33 lists (R36). -/
def Slot.valueOk (s : Slot) : Bool :=
  if s.kind == 2 || s.kind == 5 then s.val < 16
  else if s.kind == 4 then s.val < 256
  else if s.kind == 3 then s.val < 2
  else if s.kind == 6 then s.val < 6
  else true

/-- The slot checks together. -/
def Slot.wf (s : Slot) : Bool := s.emptyOk && s.kindOk && s.valueOk

/-- Ids 34 to 63 are never output (R26). -/
def Outputs.idOk (o : Outputs) : Bool := o.instrId ≤ 33

/-- Mnemonic codes 19 to 31 are never output (R27). -/
def Outputs.mnemOk (o : Outputs) : Bool := o.mnem ≤ 18

/-- `known_o` is set exactly when id, stage and mnemonic code are not 0 (R24 to R27). -/
def Outputs.knownOk (o : Outputs) : Bool :=
  o.known == (o.instrId != 0) && o.known == (o.stage != 0) && o.known == (o.mnem != 0)

/-- The stage is the one whose ids hold the id: 1 to 13, 14 to 22, 23 to 33 (R25, R26). -/
def Outputs.stageOk (o : Outputs) : Bool :=
  o.stage == (if o.instrId == 0 then 0 else if o.instrId ≤ 13 then 1 else if o.instrId ≤ 22 then 2 else 3)

/-- Exactly the slots below `nops_o` hold operands; a known instruction has at least one (R28, R29). -/
def Outputs.nopsOk (o : Outputs) : Bool :=
  (o.op0.kind != 0) == (0 < o.nops) && (o.op1.kind != 0) == (1 < o.nops) &&
    (o.op2.kind != 0) == (2 < o.nops) && o.known == (o.nops != 0)

/-- The optional bit is set on slot 1 of SHR (id 20) and SHL (id 22) and nowhere else (R29). -/
def Outputs.optOk (o : Outputs) : Bool :=
  !o.op0.opt && o.op1.opt == (o.instrId == 20 || o.instrId == 22) && !o.op2.opt

/-- The raw fields overlap as R62 says: `kk` is `y` then `n`, `addr` is `x` then `kk`. -/
def Outputs.fieldsOk (o : Outputs) : Bool :=
  o.fldKk == o.fldY ++ o.fldN && o.fldAddr == o.fldX ++ o.fldKk

/-- A record the block may drive once settled. -/
def Outputs.wf (o : Outputs) : Bool :=
  o.idOk && o.mnemOk && o.knownOk && o.stageOk && o.nopsOk && o.optOk && o.fieldsOk &&
    o.op0.wf && o.op1.wf && o.op2.wf

end Sys2Proof
end

