-- ==== Sys2Proof/Decode.lean ====
section
/-! DEFINITION. Field extraction (30_encoding.md R61), the priority dispatch over three mask stages (R65 to R72), the
big-endian bytes of a word (20_memory.md R41), and the encoder (R63). -/

namespace Sys2Proof

/-- Top nibble, `w[15:12]` (R61). -/
def Word.fieldTop (w : Word) : Nibble := w.extractLsb' 12 4

/-- `x`, `w[11:8]` (R61). -/
def Word.fieldX (w : Word) : Nibble := w.extractLsb' 8 4

/-- `y`, `w[7:4]` (R61). -/
def Word.fieldY (w : Word) : Nibble := w.extractLsb' 4 4

/-- `n`, `w[3:0]` (R61). -/
def Word.fieldN (w : Word) : Nibble := w.extractLsb' 0 4

/-- `kk`, `w[7:0]` (R61). -/
def Word.fieldKk (w : Word) : Byte := w.extractLsb' 0 8

/-- `addr`, `w[11:0]` (R61). -/
def Word.fieldAddr (w : Word) : Addr := w.extractLsb' 0 12

/-- One case of a stage: the stage's mask, the case's value, and the instruction it reads from the word. -/
structure Case where
  mask : Word
  value : Word
  read : Word → Instr

/-- `(w & mask) == value` (R65 to R67). -/
def Case.fits (c : Case) (w : Word) : Bool := w &&& c.mask == c.value

/-- Stage 1, mask `0xF000`: 13 cases (R65). -/
def stage1Cases : List Case := [
  ⟨0xF000, 0x0000, fun w => .sys w.fieldAddr⟩,
  ⟨0xF000, 0x1000, fun w => .jp w.fieldAddr⟩,
  ⟨0xF000, 0x2000, fun w => .call w.fieldAddr⟩,
  ⟨0xF000, 0x3000, fun w => .seByte w.fieldX w.fieldKk⟩,
  ⟨0xF000, 0x4000, fun w => .sneByte w.fieldX w.fieldKk⟩,
  ⟨0xF000, 0x5000, fun w => .seReg w.fieldX w.fieldY⟩,
  ⟨0xF000, 0x6000, fun w => .ldByte w.fieldX w.fieldKk⟩,
  ⟨0xF000, 0x7000, fun w => .addByte w.fieldX w.fieldKk⟩,
  ⟨0xF000, 0x9000, fun w => .sneReg w.fieldX w.fieldY⟩,
  ⟨0xF000, 0xA000, fun w => .ldI w.fieldAddr⟩,
  ⟨0xF000, 0xB000, fun w => .jpV0 w.fieldAddr⟩,
  ⟨0xF000, 0xC000, fun w => .rnd w.fieldX w.fieldKk⟩,
  ⟨0xF000, 0xD000, fun w => .drw w.fieldX w.fieldY w.fieldN⟩]

/-- Stage 2, mask `0xF00F`: 9 cases (R66). -/
def stage2Cases : List Case := [
  ⟨0xF00F, 0x8000, fun w => .ldReg w.fieldX w.fieldY⟩,
  ⟨0xF00F, 0x8001, fun w => .orReg w.fieldX w.fieldY⟩,
  ⟨0xF00F, 0x8002, fun w => .andReg w.fieldX w.fieldY⟩,
  ⟨0xF00F, 0x8003, fun w => .xorReg w.fieldX w.fieldY⟩,
  ⟨0xF00F, 0x8004, fun w => .addReg w.fieldX w.fieldY⟩,
  ⟨0xF00F, 0x8005, fun w => .subReg w.fieldX w.fieldY⟩,
  ⟨0xF00F, 0x8006, fun w => .shr w.fieldX w.fieldY⟩,
  ⟨0xF00F, 0x8007, fun w => .subn w.fieldX w.fieldY⟩,
  ⟨0xF00F, 0x800E, fun w => .shl w.fieldX w.fieldY⟩]

/-- Stage 3, mask `0xF0FF`: 11 cases (R67). -/
def stage3Cases : List Case := [
  ⟨0xF0FF, 0xE09E, fun w => .skp w.fieldX⟩,
  ⟨0xF0FF, 0xE0A1, fun w => .sknp w.fieldX⟩,
  ⟨0xF0FF, 0xF007, fun w => .ldVxDt w.fieldX⟩,
  ⟨0xF0FF, 0xF00A, fun w => .ldVxK w.fieldX⟩,
  ⟨0xF0FF, 0xF015, fun w => .ldDtVx w.fieldX⟩,
  ⟨0xF0FF, 0xF018, fun w => .ldStVx w.fieldX⟩,
  ⟨0xF0FF, 0xF01E, fun w => .addI w.fieldX⟩,
  ⟨0xF0FF, 0xF029, fun w => .ldF w.fieldX⟩,
  ⟨0xF0FF, 0xF033, fun w => .ldB w.fieldX⟩,
  ⟨0xF0FF, 0xF055, fun w => .ldMemVx w.fieldX⟩,
  ⟨0xF0FF, 0xF065, fun w => .ldVxMem w.fieldX⟩]

/-- The case of a stage that matches the word, read; at most one does (R69). -/
def readStage : List Case → Word → Option Instr
  | [], _ => none
  | c :: rest, w => if c.fits w then some (c.read w) else readStage rest w

/-- The three families of the Unknown space (R72). The names are this model's labels. -/
inductive UnknownSpace where
  /-- top nibble 8 with a low nibble that no stage-2 case has -/
  | aluFunction
  /-- top nibble E with a low byte that no stage-3 case has -/
  | eFunction
  /-- top nibble F with a low byte that no stage-3 case has -/
  | fFunction
deriving DecidableEq, Repr

/-- What the decoder reads from a word: an instruction, or Unknown, by the name of its family. -/
inductive Reading where
  | known (i : Instr)
  | unknown (space : UnknownSpace)
deriving DecidableEq, Repr

/-- The family of a word that no case matches (R72). -/
def unknownSpaceOf (w : Word) : UnknownSpace :=
  if w.fieldTop == 0x8 then .aluFunction
  else if w.fieldTop == 0xE then .eFunction
  else .fFunction

/-- The dispatch: each stage is tried only if the one before it matched nothing; then Unknown (R68, R71). -/
def decodeWord (w : Word) : Reading :=
  match readStage stage1Cases w with
  | some i => .known i
  | none =>
    match readStage stage2Cases w with
    | some i => .known i
    | none =>
      match readStage stage3Cases w with
      | some i => .known i
      | none => .unknown (unknownSpaceOf w)

/-- A word from two consecutive bytes, high byte first (20_memory.md R41). -/
def wordOfBytes (hi lo : Byte) : Word := hi ++ lo

/-- The two bytes of a word as the walker's buffer holds them, high byte first (R41). -/
def bytesOfWord (w : Word) : List Byte := [w.extractLsb' 8 8, w.extractLsb' 0 8]

/-- What the decoder reads from a byte list: a whole word and the bytes after it, or too few bytes for a word. -/
inductive BytesReading where
  | word (r : Reading) (rest : List Byte)
  /-- fewer than two bytes: the block only ever sees whole words (20_memory.md R43) -/
  | noWholeWord
deriving DecidableEq, Repr

/-- Decode the first word of a byte list; every instruction is one word (R60). -/
def decodeBytes : List Byte → BytesReading
  | hi :: lo :: rest => .word (decodeWord (wordOfBytes hi lo)) rest
  | _ => .noWholeWord

/-- Format `nnn` (R63). -/
def packNnn (top : Nibble) (addr : Addr) : Word := top ++ addr

/-- Format `xkk`, and `xff` with the function as low byte (R63). -/
def packXkk (top x : Nibble) (kk : Byte) : Word := (top ++ x : Byte) ++ kk

/-- Formats `xyn`, `xyf` with the function as low nibble, and `xy` with the ignored nibble (R63). -/
def packXyn (top x y n : Nibble) : Word := (top ++ x : Byte) ++ (y ++ n : Byte)

/-- The word of an instruction (R63, R65 to R67). Ignored bits are 0 (log 10). -/
def encode : Instr → Word
  | .sys addr => packNnn 0x0 addr
  | .jp addr => packNnn 0x1 addr
  | .call addr => packNnn 0x2 addr
  | .seByte x kk => packXkk 0x3 x kk
  | .sneByte x kk => packXkk 0x4 x kk
  | .seReg x y => packXyn 0x5 x y 0x0
  | .ldByte x kk => packXkk 0x6 x kk
  | .addByte x kk => packXkk 0x7 x kk
  | .sneReg x y => packXyn 0x9 x y 0x0
  | .ldI addr => packNnn 0xA addr
  | .jpV0 addr => packNnn 0xB addr
  | .rnd x kk => packXkk 0xC x kk
  | .drw x y n => packXyn 0xD x y n
  | .ldReg x y => packXyn 0x8 x y 0x0
  | .orReg x y => packXyn 0x8 x y 0x1
  | .andReg x y => packXyn 0x8 x y 0x2
  | .xorReg x y => packXyn 0x8 x y 0x3
  | .addReg x y => packXyn 0x8 x y 0x4
  | .subReg x y => packXyn 0x8 x y 0x5
  | .shr x y => packXyn 0x8 x y 0x6
  | .subn x y => packXyn 0x8 x y 0x7
  | .shl x y => packXyn 0x8 x y 0xE
  | .skp x => packXkk 0xE x 0x9E
  | .sknp x => packXkk 0xE x 0xA1
  | .ldVxDt x => packXkk 0xF x 0x07
  | .ldVxK x => packXkk 0xF x 0x0A
  | .ldDtVx x => packXkk 0xF x 0x15
  | .ldStVx x => packXkk 0xF x 0x18
  | .addI x => packXkk 0xF x 0x1E
  | .ldF x => packXkk 0xF x 0x29
  | .ldB x => packXkk 0xF x 0x33
  | .ldMemVx x => packXkk 0xF x 0x55
  | .ldVxMem x => packXkk 0xF x 0x65

/-- The bytes of an instruction, high byte first (R41). -/
def encodeBytes (i : Instr) : List Byte := bytesOfWord (encode i)

/-- The bits of a word its instruction's format does not ignore: all but the low nibble of format `xy` (R63, R73). -/
def usedBits : Instr → Word
  | .seReg .. | .sneReg .. => 0xFFF0
  | .sys .. | .jp .. | .call .. | .seByte .. | .sneByte .. | .ldByte .. | .addByte .. | .ldI .. | .jpV0 ..
  | .rnd .. | .drw .. | .ldReg .. | .orReg .. | .andReg .. | .xorReg .. | .addReg .. | .subReg .. | .shr ..
  | .subn .. | .shl .. | .skp .. | .sknp .. | .ldVxDt .. | .ldVxK .. | .ldDtVx .. | .ldStVx .. | .addI ..
  | .ldF .. | .ldB .. | .ldMemVx .. | .ldVxMem .. => 0xFFFF

/-- The word whose bits, numbered as the opcode table numbers them, are the low `nbits` of `w`. -/
def tableWord (nbits w : Nat) : Word := BitVec.ofNat 16 (w % 2 ^ nbits)

/-- The instruction the decoder reads from an instruction whose bits are `w`, laid out in bytes as R41 says. -/
def decodeTableWord (nbits w : Nat) : Option Instr :=
  match decodeBytes (bytesOfWord (tableWord nbits w)) with
  | .word (.known i) _ => some i
  | _ => none

end Sys2Proof
end

