-- ==== Sys2Proof/Machine/State.lean ====
section
/-! DEFINITION. The state of the machine: the block's ports, how far the outputs have settled, and the host interface.
The block itself holds no architectural state (10_state.md R20). -/

namespace Sys2Proof.Machine

/-- Why a step could fault. There is no such reason: the block raises nothing, for any word (60_exceptions.md R160),
so this type has no constructor. Safe: the spec gives no fault to leave out. -/
inductive Fault where
deriving DecidableEq, Repr

/-- Why a step could be refused. -/
inductive Refusal where
  /-- Raised by an arm of exec whose instruction has no meaning yet; no arm raises it in this model. Safe. -/
  | notModelled (mnemonic : String)
deriving DecidableEq, Repr

/-- How far the outputs have followed the input (70_reset_and_hazards.md R184). -/
inductive Settle where
  /-- `elapsed` units of time have passed since the last change of a bit of `opcode_i`, fewer than `T_DECODE` -/
  | settling (elapsed : Nat)
  /-- `T_DECODE` or more have passed -/
  | settled
deriving DecidableEq, Repr

/-- The block's ports, its settle phase, and the host interface. The block holds nothing else (10_state.md R20). -/
structure State where
  /-- `opcode_i`, the input port (10_state.md R22) -/
  opcodeI : Word
  /-- what the output ports carry now (10_state.md R23) -/
  out : Outputs
  /-- how far the outputs have settled (R184) -/
  settle : Settle
  /-- the words the outside will present next, first one first: the model's own, log 5 -/
  pending : List Word
  /-- the index of the next free value of a settle window: the model's own, log 6 -/
  windows : Nat
deriving DecidableEq, Repr

/-- Power-up: the outputs are any value until they have settled (R181); the input is log 2's choice, nothing is pending. -/
def State.reset : State :=
  { opcodeI := 0x0000
    out := Config.unsettled 0
    settle := .settling 0
    pending := []
    windows := 1 }

end Sys2Proof.Machine
end

