-- ==== Sys2Proof/Machine/Operands.lean ====
section
/-! DEFINITION. Every operand form and its slot: kind codes (10_state.md R37), alias and literal codes (R32, R33),
mnemonic codes (R27), values (R36), slots (R29), and the way back from a record to the source's tagged form (R36). -/

namespace Sys2Proof.Machine

/-- Mnemonic codes 1 to 18 (R27). -/
def mnemonicCode : Mnemonic → BitVec 5
  | .sys => 1 | .jp => 2 | .call => 3 | .se => 4 | .sne => 5 | .ld => 6 | .add => 7 | .rnd => 8 | .drw => 9
  | .or => 10 | .and => 11 | .xor => 12 | .sub => 13 | .shr => 14 | .subn => 15 | .shl => 16 | .skp => 17
  | .sknp => 18

/-- The mnemonics in the order of their codes, from code 1 (R27). -/
def mnemonicsInOrder : List Mnemonic :=
  [.sys, .jp, .call, .se, .sne, .ld, .add, .rnd, .drw] ++ [.or, .and, .xor, .sub, .shr, .subn, .shl, .skp, .sknp]

/-- The mnemonic of a code; none for 0 and for codes that are never output (R27). -/
def mnemonicOfCode (c : BitVec 5) : Option Mnemonic := mnemonicsInOrder.find? fun m => mnemonicCode m == c

/-- RegisterAlias codes (R32). -/
def regAliasCode : RegAlias → BitVec 12
  | .i => 0
  | .v0 => 1

/-- The alias of a code (R32). -/
def regAliasOfCode (c : BitVec 12) : Option RegAlias := [RegAlias.i, .v0].find? fun a => regAliasCode a == c

/-- Literal codes (R33). -/
def literalCode : Literal → BitVec 12
  | .dt => 0
  | .k => 1
  | .st => 2
  | .f => 3
  | .b => 4
  | .memI => 5

/-- The literal of a code; none for codes that are never output (R33). -/
def literalOfCode (c : BitVec 12) : Option Literal :=
  [Literal.dt, .k, .st, .f, .b, .memI].find? fun l => literalCode l == c

/-- Operand kind codes (R37). -/
def operandKind : Operand → BitVec 3
  | .address _ => 1
  | .register _ => 2
  | .regAlias _ => 3
  | .byte _ => 4
  | .nibble _ => 5
  | .literal _ => 6

/-- Operand values, zero-extended to 12 bits (R36). -/
def operandValue : Operand → BitVec 12
  | .address a => a
  | .register r => r.setWidth 12
  | .regAlias a => regAliasCode a
  | .byte b => b.setWidth 12
  | .nibble n => n.setWidth 12
  | .literal l => literalCode l

/-- The slot that carries an operand (R29). -/
def slotOfArg (a : Arg) : Slot := ⟨operandKind a.operand, operandValue a.operand, a.optional⟩

/-- Slot `k` of an operand sequence: its k-th operand, or NONE past its end (R29). -/
def slotAt (args : List Arg) (k : Nat) : Slot :=
  match args[k]? with
  | some a => slotOfArg a
  | none => Slot.none

/-- The operand a slot carries; none for an empty slot and for codes that are never output (R36, R37). -/
def operandOfSlot (s : Slot) : Option Operand :=
  if s.kind == 1 then some (.address s.val)
  else if s.kind == 2 && s.val < 16 then some (.register (s.val.setWidth 4))
  else if s.kind == 3 then (regAliasOfCode s.val).map .regAlias
  else if s.kind == 4 && s.val < 256 then some (.byte (s.val.setWidth 8))
  else if s.kind == 5 && s.val < 16 then some (.nibble (s.val.setWidth 4))
  else if s.kind == 6 then (literalOfCode s.val).map .literal
  else none

/-- The operand of a slot with its optional bit (R29). -/
def argOfSlot (s : Slot) : Option Arg := (operandOfSlot s).map fun o => ⟨o, s.opt⟩

/-- The operands of a list of slots, if every one carries an operand. -/
def argsOfSlots : List Slot → Option (List Arg)
  | [] => some []
  | s :: rest =>
    match argOfSlot s, argsOfSlots rest with
    | some a, some as => some (a :: as)
    | _, _ => none

/-- The source's tagged form of a record (R23, R36); none if the record holds a code that is never output. -/
def decodedOfOutputs (o : Outputs) : Option Decoded :=
  if o.known then
    match mnemonicOfCode o.mnem, argsOfSlots ([o.op0, o.op1, o.op2].take o.nops.toNat) with
    | some m, some as => some (.known m as)
    | _, _ => none
  else some .unknown

/-- The register operand `Vx` or `Vy`, not optional (R31). -/
def vReg (r : Nibble) : Arg := ⟨.register r, false⟩

/-- The optional register operand of SHR and SHL (R29). -/
def vRegOptional (r : Nibble) : Arg := ⟨.register r, true⟩

/-- The address operand `addr` (R46). -/
def addrArg (a : Addr) : Arg := ⟨.address a, false⟩

/-- The byte operand `kk` (R64). -/
def byteArg (kk : Byte) : Arg := ⟨.byte kk, false⟩

/-- The nibble operand `n` (R64). -/
def nibbleArg (n : Nibble) : Arg := ⟨.nibble n, false⟩

/-- A pseudo-register operand, taken from no opcode bit (R32). -/
def aliasArg (a : RegAlias) : Arg := ⟨.regAlias a, false⟩

/-- A literal operand, taken from no opcode bit (R33). -/
def literalArg (l : Literal) : Arg := ⟨.literal l, false⟩

end Sys2Proof.Machine
end

