-- ==== Sys2Proof/Machine/Flags.lean ====
section
/-! DEFINITION. The status outputs. The block has no flag register and no instruction writes a flag (10_state.md R20);
its one status bit is the known flag, beside the stage code (R24, R25). -/

namespace Sys2Proof.Machine

/-- Stage codes; 0 is Unknown's (R25). -/
def stageCode : Stage → BitVec 2
  | .one => 1
  | .two => 2
  | .three => 3

/-- `known_o <- (id != 0)` (30_encoding.md R76). -/
def knownFlag (id : BitVec 6) : Bool := id != 0

end Sys2Proof.Machine
end

