-- ==== Sys2Proof/Machine/Ops.lean ====
section
/-! DEFINITION. The shared operations: presenting a word on `opcode_i`, and driving the output ports. The block has no
exception to take and no return from one (60_exceptions.md R165, R166), so no operation for either stands here. -/

namespace Sys2Proof.Machine

/-- The outside drives `w` on `opcode_i`. If a bit changes, a settle window opens and the outputs may take any value
(70_reset_and_hazards.md R184); if none does, nothing happens (log 9). -/
def State.present (w : Word) (s : State) : State :=
  if w = s.opcodeI then s
  else
    { s with
      opcodeI := w
      out := Config.unsettled s.windows
      settle := .settling 0
      windows := s.windows + 1 }

/-- The word of the next evaluation: the first pending one, or else the one that stays on `opcode_i`. -/
def State.nextWord (s : State) : Word :=
  match s.pending with
  | [] => s.opcodeI
  | w :: _ => w

/-- The outside presents the first pending word, if there is one (20_memory.md R43: one whole word an evaluation). -/
def State.accept (s : State) : State :=
  match s.pending with
  | [] => s
  | w :: rest => State.present w { s with pending := rest }

/-- The ports of a settled evaluation of word `w`: the given codes and operands, and the raw fields of `w`
(10_state.md R23, R28 to R30). -/
def portsOf (stage : BitVec 2) (id : BitVec 6) (mnem : BitVec 5) (args : List Arg) (w : Word) : Outputs :=
  { known := knownFlag id
    stage := stage
    instrId := id
    mnem := mnem
    nops := BitVec.ofNat 2 args.length
    op0 := slotAt args 0
    op1 := slotAt args 1
    op2 := slotAt args 2
    fldTop := w.fieldTop
    fldX := w.fieldX
    fldY := w.fieldY
    fldN := w.fieldN
    fldKk := w.fieldKk
    fldAddr := w.fieldAddr }

/-- The outputs settle to the given record. All outputs are driven (00_scope.md R11); the input is held. -/
def State.drive (o : Outputs) (s : State) : State := { s with out := o, settle := .settled }

/-- The outputs of a known instruction settle (the pseudocode of R100 to R150). -/
def driveKnown (stage : Stage) (id : BitVec 6) (m : Mnemonic) (args : List Arg) (s : State) : State :=
  s.drive (portsOf (stageCode stage) id (mnemonicCode m) args s.opcodeI)

/-- The outputs of an Unknown word settle: zeros, and the raw fields (30_encoding.md R80). -/
def driveUnknown (s : State) : State := s.drive (portsOf 0 0 0 [] s.opcodeI)

end Sys2Proof.Machine
end

