-- ==== Sys2Proof/Machine/Stage1.lean ====
section
/-! DEFINITION. Meanings of the 13 instructions of stage 1, selected by the top nibble alone (40_stage1_top_nibble.md).
A meaning drives the output record of its rule; executing the instruction is no part of the block (00_scope.md R6). -/

namespace Sys2Proof.Machine

/-- `SYS addr` (R100). -/
def execSys (addr : Addr) (s : State) : Host.Outcome State Fault Refusal :=
  .next (driveKnown .one 1 .sys [addrArg addr] s)

/-- `JP addr` (R101). -/
def execJp (addr : Addr) (s : State) : Host.Outcome State Fault Refusal :=
  .next (driveKnown .one 2 .jp [addrArg addr] s)

/-- `CALL addr` (R102). -/
def execCall (addr : Addr) (s : State) : Host.Outcome State Fault Refusal :=
  .next (driveKnown .one 3 .call [addrArg addr] s)

/-- `SE Vx,kk` (R103). -/
def execSeByte (x : Nibble) (kk : Byte) (s : State) : Host.Outcome State Fault Refusal :=
  .next (driveKnown .one 4 .se [vReg x, byteArg kk] s)

/-- `SNE Vx,kk` (R104). -/
def execSneByte (x : Nibble) (kk : Byte) (s : State) : Host.Outcome State Fault Refusal :=
  .next (driveKnown .one 5 .sne [vReg x, byteArg kk] s)

/-- `SE Vx,Vy` (R105). -/
def execSeReg (x y : Nibble) (s : State) : Host.Outcome State Fault Refusal :=
  .next (driveKnown .one 6 .se [vReg x, vReg y] s)

/-- `LD Vx,kk` (R106). -/
def execLdByte (x : Nibble) (kk : Byte) (s : State) : Host.Outcome State Fault Refusal :=
  .next (driveKnown .one 7 .ld [vReg x, byteArg kk] s)

/-- `ADD Vx,kk` (R107). -/
def execAddByte (x : Nibble) (kk : Byte) (s : State) : Host.Outcome State Fault Refusal :=
  .next (driveKnown .one 8 .add [vReg x, byteArg kk] s)

/-- `SNE Vx,Vy` (R108). -/
def execSneReg (x y : Nibble) (s : State) : Host.Outcome State Fault Refusal :=
  .next (driveKnown .one 9 .sne [vReg x, vReg y] s)

/-- `LD I,addr` (R109). -/
def execLdI (addr : Addr) (s : State) : Host.Outcome State Fault Refusal :=
  .next (driveKnown .one 10 .ld [aliasArg .i, addrArg addr] s)

/-- `JP V0,addr` (R110). -/
def execJpV0 (addr : Addr) (s : State) : Host.Outcome State Fault Refusal :=
  .next (driveKnown .one 11 .jp [aliasArg .v0, addrArg addr] s)

/-- `RND Vx,kk` (R111). -/
def execRnd (x : Nibble) (kk : Byte) (s : State) : Host.Outcome State Fault Refusal :=
  .next (driveKnown .one 12 .rnd [vReg x, byteArg kk] s)

/-- `DRW Vx,Vy,n` (R112). -/
def execDrw (x y n : Nibble) (s : State) : Host.Outcome State Fault Refusal :=
  .next (driveKnown .one 13 .drw [vReg x, vReg y, nibbleArg n] s)

end Sys2Proof.Machine
end

