-- ==== Sys2Proof/Machine/Stage2.lean ====
section
/-! DEFINITION. Meanings of the 9 instructions of stage 2, top nibble 8 (41_stage2_alu_group.md). The block only decodes them: no result, carry or
flag exists in it.
A meaning drives the output record of its rule; executing the instruction is no part of the block (00_scope.md R6). -/

namespace Sys2Proof.Machine

/-- `LD Vx,Vy` (R120). -/
def execLdReg (x y : Nibble) (s : State) : Host.Outcome State Fault Refusal :=
  .next (driveKnown .two 14 .ld [vReg x, vReg y] s)

/-- `OR Vx,Vy` (R121). -/
def execOrReg (x y : Nibble) (s : State) : Host.Outcome State Fault Refusal :=
  .next (driveKnown .two 15 .or [vReg x, vReg y] s)

/-- `AND Vx,Vy` (R122). -/
def execAndReg (x y : Nibble) (s : State) : Host.Outcome State Fault Refusal :=
  .next (driveKnown .two 16 .and [vReg x, vReg y] s)

/-- `XOR Vx,Vy` (R123). -/
def execXorReg (x y : Nibble) (s : State) : Host.Outcome State Fault Refusal :=
  .next (driveKnown .two 17 .xor [vReg x, vReg y] s)

/-- `ADD Vx,Vy` (R124). -/
def execAddReg (x y : Nibble) (s : State) : Host.Outcome State Fault Refusal :=
  .next (driveKnown .two 18 .add [vReg x, vReg y] s)

/-- `SUB Vx,Vy` (R125). -/
def execSubReg (x y : Nibble) (s : State) : Host.Outcome State Fault Refusal :=
  .next (driveKnown .two 19 .sub [vReg x, vReg y] s)

/-- `SHR Vx, optional Vy` (R126). -/
def execShr (x y : Nibble) (s : State) : Host.Outcome State Fault Refusal :=
  .next (driveKnown .two 20 .shr [vReg x, vRegOptional y] s)

/-- `SUBN Vx,Vy` (R127). -/
def execSubn (x y : Nibble) (s : State) : Host.Outcome State Fault Refusal :=
  .next (driveKnown .two 21 .subn [vReg x, vReg y] s)

/-- `SHL Vx, optional Vy` (R128). -/
def execShl (x y : Nibble) (s : State) : Host.Outcome State Fault Refusal :=
  .next (driveKnown .two 22 .shl [vReg x, vRegOptional y] s)

end Sys2Proof.Machine
end

