-- ==== Sys2Proof/Machine/Stage3.lean ====
section
/-! DEFINITION. Meanings of the 11 instructions of stage 3, top nibbles E and F (42_stage3_e_f_group.md).
A meaning drives the output record of its rule; executing the instruction is no part of the block (00_scope.md R6). -/

namespace Sys2Proof.Machine

/-- `SKP Vx` (R140). -/
def execSkp (x : Nibble) (s : State) : Host.Outcome State Fault Refusal :=
  .next (driveKnown .three 23 .skp [vReg x] s)

/-- `SKNP Vx` (R141). -/
def execSknp (x : Nibble) (s : State) : Host.Outcome State Fault Refusal :=
  .next (driveKnown .three 24 .sknp [vReg x] s)

/-- `LD Vx,DT` (R142). -/
def execLdVxDt (x : Nibble) (s : State) : Host.Outcome State Fault Refusal :=
  .next (driveKnown .three 25 .ld [vReg x, literalArg .dt] s)

/-- `LD Vx,K` (R143). -/
def execLdVxK (x : Nibble) (s : State) : Host.Outcome State Fault Refusal :=
  .next (driveKnown .three 26 .ld [vReg x, literalArg .k] s)

/-- `LD DT,Vx` (R144). -/
def execLdDtVx (x : Nibble) (s : State) : Host.Outcome State Fault Refusal :=
  .next (driveKnown .three 27 .ld [literalArg .dt, vReg x] s)

/-- `LD ST,Vx` (R145). -/
def execLdStVx (x : Nibble) (s : State) : Host.Outcome State Fault Refusal :=
  .next (driveKnown .three 28 .ld [literalArg .st, vReg x] s)

/-- `ADD I,Vx` (R146). -/
def execAddI (x : Nibble) (s : State) : Host.Outcome State Fault Refusal :=
  .next (driveKnown .three 29 .add [aliasArg .i, vReg x] s)

/-- `LD F,Vx` (R147). -/
def execLdF (x : Nibble) (s : State) : Host.Outcome State Fault Refusal :=
  .next (driveKnown .three 30 .ld [literalArg .f, vReg x] s)

/-- `LD B,Vx` (R148). -/
def execLdB (x : Nibble) (s : State) : Host.Outcome State Fault Refusal :=
  .next (driveKnown .three 31 .ld [literalArg .b, vReg x] s)

/-- `LD [I],Vx` (R149). -/
def execLdMemVx (x : Nibble) (s : State) : Host.Outcome State Fault Refusal :=
  .next (driveKnown .three 32 .ld [literalArg .memI, vReg x] s)

/-- `LD Vx,[I]` (R150). -/
def execLdVxMem (x : Nibble) (s : State) : Host.Outcome State Fault Refusal :=
  .next (driveKnown .three 33 .ld [vReg x, literalArg .memI] s)

end Sys2Proof.Machine
end

