-- ==== Sys2Proof/Machine/Settle.lean ====
section
/-! DEFINITION. The evaluation of the word on `opcode_i`, and the passing of time (70_reset_and_hazards.md R181, R184). -/

namespace Sys2Proof.Machine

/-- The outputs settle for the word on `opcode_i`: the meaning of the instruction decoded, or Unknown's record, which
is a normal result (60_exceptions.md R161). -/
def evaluate (s : State) : Host.Outcome State Fault Refusal :=
  match decodeWord s.opcodeI with
  | .known i => exec i s
  | .unknown _ => .next (driveUnknown s)

/-- `opcode_i` is held for `d` units of time. Once `T_DECODE` has passed since its last change the outputs have settled
and stay; before that they may take any value (R184). -/
def hold (d : Nat) (s : State) : Host.Outcome State Fault Refusal :=
  match s.settle with
  | .settled => .next s
  | .settling elapsed =>
    if Config.tDecode ≤ elapsed + d then evaluate s
    else
      .next
        { s with
          out := Config.unsettled s.windows
          settle := .settling (elapsed + d)
          windows := s.windows + 1 }

end Sys2Proof.Machine
end

