-- ==== Sys2Proof/Machine/Step.lean ====
section
/-! DEFINITION. One step: the next pending word, if there is one, is presented, and the word on `opcode_i` is held until
the outputs have settled (70_reset_and_hazards.md R181, R186: a decode is one function application; log 1). -/

namespace Sys2Proof.Machine

def step (s : State) : Host.Outcome State Fault Refusal := evaluate s.accept

/-- The outside is about to present the word whose table bits are the low `nbits` of `w`: it becomes the first pending
word, in place of the one that was (log 5). -/
def State.withFetchWord (s : State) (nbits w : Nat) : State :=
  { s with pending := tableWord nbits w :: s.pending.tail }

end Sys2Proof.Machine
end

