-- ==== Sys2Proof/Machine/Display.lean ====
section
/-! DEFINITION. The formatter, outside the block (00_scope.md R5), modelled for its display syntax (30_encoding.md R85 to
R93). Text is a list of characters, in pieces that carry their style class. -/

namespace Sys2Proof.Machine

/-- The text classes that styling wraps (R93). -/
inductive StyleClass where
  | address | register | immediateByte | immediateNibble | mnemonicName | opcodeHex | unknownMarker
deriving DecidableEq, Repr

/-- A run of text of one class, or of none. -/
structure Piece where
  style : Option StyleClass
  text : List Char
deriving DecidableEq, Repr

/-- A styled line's elements: characters, and start and end markers, whose bytes the spec does not give (R93). -/
inductive Glyph where
  | char (c : Char)
  | startMarker (style : StyleClass)
  | endMarker (style : StyleClass)
deriving DecidableEq, Repr

/-- A hexadecimal digit, uppercase. -/
def hexUpper (d : Nibble) : Char := Char.ofNat (if d < 10 then 48 + d.toNat else 55 + d.toNat)

/-- A hexadecimal digit, lowercase. -/
def hexLower (d : Nibble) : Char := Char.ofNat (if d < 10 then 48 + d.toNat else 87 + d.toNat)

/-- The opcode in 4 hexadecimal digits, lowercase (R85). -/
def hex4 (w : Word) : List Char :=
  [hexLower w.fieldTop, hexLower w.fieldX, hexLower w.fieldY, hexLower w.fieldN]

/-- The mnemonic's name (10_state.md R27). -/
def mnemonicText : Mnemonic → List Char
  | .sys => ['S', 'Y', 'S']
  | .jp => ['J', 'P']
  | .call => ['C', 'A', 'L', 'L']
  | .se => ['S', 'E']
  | .sne => ['S', 'N', 'E']
  | .ld => ['L', 'D']
  | .add => ['A', 'D', 'D']
  | .rnd => ['R', 'N', 'D']
  | .drw => ['D', 'R', 'W']
  | .or => ['O', 'R']
  | .and => ['A', 'N', 'D']
  | .xor => ['X', 'O', 'R']
  | .sub => ['S', 'U', 'B']
  | .shr => ['S', 'H', 'R']
  | .subn => ['S', 'U', 'B', 'N']
  | .shl => ['S', 'H', 'L']
  | .skp => ['S', 'K', 'P']
  | .sknp => ['S', 'K', 'N', 'P']

/-- The text of a RegisterAlias (R89). -/
def regAliasText : RegAlias → List Char
  | .i => ['I']
  | .v0 => ['V', '0']

/-- The text of a Literal (R91; 10_state.md R33). -/
def literalText : Literal → List Char
  | .dt => ['D', 'T']
  | .k => ['K']
  | .st => ['S', 'T']
  | .f => ['F']
  | .b => ['B']
  | .memI => ['[', 'I', ']']

/-- The text of an operand: `$` and 4 digits (R87), `V` and 1 digit (R88), `#` and 2 digits or 1 digit (R90), or a name
(R89, R91). Names carry no style class (log 13). -/
def operandPiece : Operand → Piece
  | .address a =>
    ⟨some .address, ['$', '0', hexUpper (a.extractLsb' 8 4), hexUpper (a.extractLsb' 4 4), hexUpper (a.extractLsb' 0 4)]⟩
  | .register r => ⟨some .register, ['V', hexUpper r]⟩
  | .regAlias a => ⟨none, regAliasText a⟩
  | .byte b => ⟨some .immediateByte, ['#', hexUpper (b.extractLsb' 4 4), hexUpper (b.extractLsb' 0 4)]⟩
  | .nibble n => ⟨some .immediateNibble, ['#', hexUpper n]⟩
  | .literal l => ⟨none, literalText l⟩

/-- An operand with what stands before and after it: nothing before the first, a comma and a space before a later one,
and the bracket form around an optional one (R86), also if it came first, which it never does (log 18). 0x7B and 0x7D are
the brackets' codes. -/
def argPieces (first : Bool) (a : Arg) : List Piece :=
  if a.optional then
    [⟨none, [Char.ofNat 0x7B, ',', ' ']⟩, operandPiece a.operand, ⟨none, [Char.ofNat 0x7D]⟩]
  else if first then [operandPiece a.operand]
  else [⟨none, [',', ' ']⟩, operandPiece a.operand]

/-- The operand text, in slot order (R86). For no operands at all, which the spec leaves open and no instruction has
(91_not_in_source.md N20), it is empty: a DESIGN CHOICE (log 18). -/
def argsPieces : List Arg → List Piece
  | [] => []
  | a :: rest => argPieces true a ++ rest.flatMap (argPieces false)

/-- The spaces that pad a mnemonic on its left to width 4 (R85). -/
def padTo4 (text : List Char) : List Char := List.replicate (4 - text.length) ' '

/-- The display line of a word and its decoded form (R85, R92). A Known form with no operands, whose rendering the spec
leaves open (91_not_in_source.md N20), would end in the space after the mnemonic: a DESIGN CHOICE (log 18). -/
def displayLine (w : Word) : Decoded → List Piece
  | .known m args =>
    [⟨some .opcodeHex, hex4 w⟩, ⟨none, ' ' :: padTo4 (mnemonicText m)⟩, ⟨some .mnemonicName, mnemonicText m⟩,
      ⟨none, [' ']⟩] ++ argsPieces args
  | .unknown =>
    [⟨some .opcodeHex, hex4 w⟩, ⟨none, [' ']⟩, ⟨some .unknownMarker, ['U', 'n', 'k', 'n', 'o', 'w', 'n']⟩]

/-- The line a formatter reads off the output ports; none if they carry a code that is never output (log 12). -/
def displayOfOutputs (o : Outputs) : Option (List Piece) :=
  (decodedOfOutputs o).map (displayLine (packNnn o.fldTop o.fldAddr))

/-- The line with styling disabled. -/
def plainText (line : List Piece) : List Char := line.flatMap Piece.text

/-- A piece with styling enabled: its text wrapped in its class's markers (R93). -/
def styledPiece (p : Piece) : List Glyph :=
  match p.style with
  | none => p.text.map .char
  | some c => .startMarker c :: (p.text.map .char ++ [.endMarker c])

/-- The line with styling enabled (R93). -/
def styledText (line : List Piece) : List Glyph := line.flatMap styledPiece

/-- The characters of a styled line, its markers stripped (R93). -/
def stripMarkers (line : List Glyph) : List Char :=
  line.filterMap fun g =>
    match g with
    | .char c => some c
    | .startMarker _ => none
    | .endMarker _ => none

end Sys2Proof.Machine
end

