-- ==== Sys2Proof/Machine/Walker.lean ====
section
/-! DEFINITION. The walker, outside the block (00_scope.md R4), as far as the spec describes it: big-endian words from
even offsets (20_memory.md R41, R43), displayed addresses (R45), and its buffer check (60_exceptions.md R162). -/

namespace Sys2Proof.Machine

/-- The walker's errors, raised before the block is used; no step raises one (R162). -/
inductive WalkerError where
  /-- a buffer below the minimum size (R162) -/
  | bufferTooShort
  /-- a final odd byte, whose handling the spec does not give (20_memory.md R43; 91_not_in_source.md N10) -/
  | oddTail
deriving DecidableEq, Repr

/-- The words of a buffer, two bytes at a time; none if a byte is left over (R41, R43). -/
def walkerWords : List Byte → Option (List Word)
  | [] => some []
  | [_] => none
  | hi :: lo :: rest => (walkerWords rest).map (wordOfBytes hi lo :: ·)

/-- The address the walker displays for byte offset `i` (R45). -/
def displayAddress (i : Nat) : Nat := i + Config.baseLoadAddress

/-- The walker accepts a buffer: its words are presented after those already pending (log 14). -/
def State.feedBuffer (buffer : List Byte) (s : State) : Except WalkerError State :=
  if buffer.length < Config.minBufferBytes then .error .bufferTooShort
  else
    match walkerWords buffer with
    | none => .error .oddTail
    | some words => .ok { s with pending := s.pending ++ words }

end Sys2Proof.Machine
end

