-- ==== Sys2Proof/Machine/Reference.lean ====
section
/-! DEFINITION. The reference hardware structure (match array, id encoder, descriptor ROM, operand mux array:
30_encoding.md R75 to R80) and the reference function (R81), which fixes what conformance means (00_scope.md R7). They
are written from their own tables, apart from the decoder and the meanings. -/

namespace Sys2Proof.Machine

/-- One row of the match array: the instruction id, its mask and its match value (R75, R77). -/
structure MatchRow where
  id : BitVec 6
  mask : Word
  value : Word
deriving DecidableEq, Repr

/-- Ids 1 to 13 (R65, R77). -/
def stage1Rows : List MatchRow := [
  ⟨1, 0xF000, 0x0000⟩, ⟨2, 0xF000, 0x1000⟩, ⟨3, 0xF000, 0x2000⟩,
  ⟨4, 0xF000, 0x3000⟩, ⟨5, 0xF000, 0x4000⟩, ⟨6, 0xF000, 0x5000⟩,
  ⟨7, 0xF000, 0x6000⟩, ⟨8, 0xF000, 0x7000⟩, ⟨9, 0xF000, 0x9000⟩,
  ⟨10, 0xF000, 0xA000⟩, ⟨11, 0xF000, 0xB000⟩, ⟨12, 0xF000, 0xC000⟩,
  ⟨13, 0xF000, 0xD000⟩]

/-- Ids 14 to 22 (R66, R77). -/
def stage2Rows : List MatchRow := [
  ⟨14, 0xF00F, 0x8000⟩, ⟨15, 0xF00F, 0x8001⟩, ⟨16, 0xF00F, 0x8002⟩,
  ⟨17, 0xF00F, 0x8003⟩, ⟨18, 0xF00F, 0x8004⟩, ⟨19, 0xF00F, 0x8005⟩,
  ⟨20, 0xF00F, 0x8006⟩, ⟨21, 0xF00F, 0x8007⟩, ⟨22, 0xF00F, 0x800E⟩]

/-- Ids 23 to 33 (R67, R77). -/
def stage3Rows : List MatchRow := [
  ⟨23, 0xF0FF, 0xE09E⟩, ⟨24, 0xF0FF, 0xE0A1⟩, ⟨25, 0xF0FF, 0xF007⟩,
  ⟨26, 0xF0FF, 0xF00A⟩, ⟨27, 0xF0FF, 0xF015⟩, ⟨28, 0xF0FF, 0xF018⟩,
  ⟨29, 0xF0FF, 0xF01E⟩, ⟨30, 0xF0FF, 0xF029⟩, ⟨31, 0xF0FF, 0xF033⟩,
  ⟨32, 0xF0FF, 0xF055⟩, ⟨33, 0xF0FF, 0xF065⟩]

/-- The match array's rows, ids 1 to 33. -/
def matchRows : List MatchRow := stage1Rows ++ stage2Rows ++ stage3Rows

/-- The comparator of a row, `m_i = ((w & MASK_i) == MATCH_i)` (R75). -/
def matchLine (r : MatchRow) (w : Word) : Bool := w &&& r.mask == r.value

/-- Whether some comparator of a stage is 1: `s1`, `s2`, `s3` of R76. -/
def stageHit (rows : List MatchRow) (w : Word) : Bool := rows.any fun r => matchLine r w

/-- The id of the stage's comparator that is 1, 0 if none is (R76). -/
def hitId : List MatchRow → Word → BitVec 6
  | [], _ => 0
  | r :: rest, w => if matchLine r w then r.id else hitId rest w

/-- The id encoder (R76). -/
def encodeId (w : Word) : BitVec 6 :=
  if stageHit stage1Rows w then hitId stage1Rows w
  else if stageHit stage2Rows w then hitId stage2Rows w
  else if stageHit stage3Rows w then hitId stage3Rows w
  else 0

/-- The stage output of the id encoder (R76). -/
def encodeStage (w : Word) : BitVec 2 :=
  if stageHit stage1Rows w then 1
  else if stageHit stage2Rows w then 2
  else if stageHit stage3Rows w then 3
  else 0

/-- The one-hot sum that R76 says the id encoder equals. -/
def oneHotId (w : Word) : BitVec 6 :=
  matchRows.foldl (fun sum r => sum + (if matchLine r w then r.id else 0)) 0

/-- ROM words 0 to 13 (R77). -/
def romStage1 : List (BitVec 37) := [
  0x0000000000, 0x0149000000, 0x0249000000, 0x0349000000, 0x0492094000,
  0x0592094000, 0x049204C000, 0x0692094000, 0x0792094000, 0x059204C000,
  0x069E024000, 0x029E124000, 0x0892094000, 0x09D204C2C0]

/-- ROM words 14 to 22 (R77). -/
def romStage2 : List (BitVec 37) := [
  0x069204C000, 0x0A9204C000, 0x0B9204C000, 0x0C9204C000, 0x079204C000,
  0x0D9204C000, 0x0E9204E000, 0x0F9204C000, 0x109204E000]

/-- ROM words 23 to 33 (R77). -/
def romStage3 : List (BitVec 37) := [
  0x1152000000, 0x1252000000, 0x06920D8000, 0x06920D8400, 0x06B6048000,
  0x06B6248000, 0x079E048000, 0x06B6348000, 0x06B6448000, 0x06B6548000,
  0x06920D9400]

/-- The descriptor ROM; addresses 34 to 63 hold anything (R77). -/
def rom (id : BitVec 6) : BitVec 37 :=
  match (romStage1 ++ romStage2 ++ romStage3)[id.toNat]? with
  | some word => word
  | none => Config.romUnused id

/-- Bits [36:32], the mnemonic code (R77). -/
def romMnem (r : BitVec 37) : BitVec 5 := r.extractLsb' 32 5

/-- Bits [31:30], the number of operands (R77). -/
def romNops (r : BitVec 37) : BitVec 2 := r.extractLsb' 30 2

/-- The descriptor of slot 0, 1 or 2: bits [29:20], [19:10], [9:0] (R77). -/
def romSlot (r : BitVec 37) (k : Nat) : BitVec 10 := r.extractLsb' (20 - 10 * k) 10

/-- Descriptor bits [9:7], the kind code (R77). -/
def descKind (d : BitVec 10) : BitVec 3 := d.extractLsb' 7 3

/-- Descriptor bits [6:4], the select code (R77). -/
def descSel (d : BitVec 10) : BitVec 3 := d.extractLsb' 4 3

/-- Descriptor bit [3], the optional bit (R77). -/
def descOpt (d : BitVec 10) : Bool := d.getLsbD 3

/-- Descriptor bits [2:0], the alias or literal code (R77). -/
def descConst (d : BitVec 10) : BitVec 3 := d.extractLsb' 0 3

/-- The value a select code selects (R78, R79); code 7 never occurs. -/
def muxValue (sel const : BitVec 3) (w : Word) : BitVec 12 :=
  if sel == 0 then 0
  else if sel == 1 then w.fieldAddr
  else if sel == 2 then w.fieldX.setWidth 12
  else if sel == 3 then w.fieldY.setWidth 12
  else if sel == 4 then w.fieldN.setWidth 12
  else if sel == 5 then w.fieldKk.setWidth 12
  else if sel == 6 then const.setWidth 12
  else Config.muxSpare w

/-- One slot of the operand mux array (R79). -/
def muxSlot (d : BitVec 10) (w : Word) : Slot := ⟨descKind d, muxValue (descSel d) (descConst d) w, descOpt d⟩

/-- The output ports for an id and a stage: ROM, mux array and raw fields (R79, R80, R81). -/
def romPorts (id : BitVec 6) (stage : BitVec 2) (w : Word) : Outputs :=
  { known := id != 0
    stage := stage
    instrId := id
    mnem := romMnem (rom id)
    nops := romNops (rom id)
    op0 := muxSlot (romSlot (rom id) 0) w
    op1 := muxSlot (romSlot (rom id) 1) w
    op2 := muxSlot (romSlot (rom id) 2) w
    fldTop := w.fieldTop
    fldX := w.fieldX
    fldY := w.fieldY
    fldN := w.fieldN
    fldKk := w.fieldKk
    fldAddr := w.fieldAddr }

/-- The settled outputs of the reference structure (R75 to R80). -/
def structureOutputs (w : Word) : Outputs := romPorts (encodeId w) (encodeStage w) w

/-- One loop of the reference function: a matching row of the stage sets id and stage (R81). -/
def scanStage (mask : Word) (stage : BitVec 2) (rows : List MatchRow) (w : Word)
    (acc : BitVec 6 × BitVec 2) : BitVec 6 × BitVec 2 :=
  rows.foldl (fun a r => if w &&& mask == r.value then (r.id, stage) else a) acc

/-- Stages 2 and 3 are scanned only while the id is still 0 (R81). -/
def scanIfUnmatched (mask : Word) (stage : BitVec 2) (rows : List MatchRow) (w : Word)
    (acc : BitVec 6 × BitVec 2) : BitVec 6 × BitVec 2 :=
  if acc.1 == 0 then scanStage mask stage rows w acc else acc

/-- The id and stage the reference function finds (R81). -/
def refIdStage (w : Word) : BitVec 6 × BitVec 2 :=
  scanIfUnmatched 0xF0FF 3 stage3Rows w
    (scanIfUnmatched 0xF00F 2 stage2Rows w (scanStage 0xF000 1 stage1Rows w (0, 0)))

/-- The reference function `decode(w)` (R81). -/
def refDecode (w : Word) : Outputs := romPorts (refIdStage w).1 (refIdStage w).2 w

end Sys2Proof.Machine
end

