-- ==== Sys2Proof/Safety.lean ====
section
/-! DEFINITION. What the claims call a sound state of the block. No run stops (60_exceptions.md R160), so nothing else is
asked of a safe run. -/

namespace Sys2Proof.Machine

/-- The settled outputs are the reference function of the word on `opcode_i`
(70_reset_and_hazards.md R181; 30_encoding.md R81). -/
def State.SettledRight (s : State) : Prop := s.settle = .settled → s.out = refDecode s.opcodeI

/-- A settle window that is still open is shorter than `T_DECODE` (70_reset_and_hazards.md R184). -/
def State.WindowOpen (s : State) : Prop := ∀ elapsed, s.settle = .settling elapsed → elapsed < Config.tDecode

/-- The invariant of the block's interface. -/
structure State.Inv (s : State) : Prop where
  settledRight : s.SettledRight
  windowOpen : s.WindowOpen

end Sys2Proof.Machine
end

