-- ==== Sys2Proof/Certificates/Slice0/Obligations.lean ====
section
/-! DEFINITION. The statements about the block, from the numbered rules of spec/. The names under Sys2Proof.Spec write
the rules' own shapes out in numbers, apart from the model's tables and operations. -/

namespace Sys2Proof.Spec

open Sys2Proof.Machine

/-- `slot <- (ADDRESS, w[11:0], 0)` -/
def addressSlot (w : Word) : Slot := ⟨1, w.extractLsb' 0 12, false⟩

/-- `slot <- (REGISTER, zext_12(w[11:8]), 0)` -/
def registerX (w : Word) : Slot := ⟨2, (w.extractLsb' 8 4).setWidth 12, false⟩

/-- `slot <- (REGISTER, zext_12(w[7:4]), 0)` -/
def registerY (w : Word) : Slot := ⟨2, (w.extractLsb' 4 4).setWidth 12, false⟩

/-- `slot <- (REGISTER, zext_12(w[7:4]), 1)` -/
def registerYOptional (w : Word) : Slot := ⟨2, (w.extractLsb' 4 4).setWidth 12, true⟩

/-- `slot <- (REG_ALIAS, code, 0)` -/
def aliasSlot (code : BitVec 12) (_ : Word) : Slot := ⟨3, code, false⟩

/-- `slot <- (BYTE, zext_12(w[7:0]), 0)` -/
def byteSlot (w : Word) : Slot := ⟨4, (w.extractLsb' 0 8).setWidth 12, false⟩

/-- `slot <- (NIBBLE, zext_12(w[3:0]), 0)` -/
def nibbleSlot (w : Word) : Slot := ⟨5, (w.extractLsb' 0 4).setWidth 12, false⟩

/-- `slot <- (LITERAL, code, 0)` -/
def literalSlot (code : BitVec 12) (_ : Word) : Slot := ⟨6, code, false⟩

/-- `slot <- NONE` -/
def emptySlot (_ : Word) : Slot := ⟨0, 0, false⟩

/-- The state with its outputs settled to the given codes and slots, and to the raw fields of its input word; its input,
its feed and its counter unchanged. -/
def settledTo (known : Bool) (stage : BitVec 2) (id : BitVec 6) (mnem : BitVec 5) (nops : BitVec 2)
    (slot0 slot1 slot2 : Slot) (s : State) : State :=
  { opcodeI := s.opcodeI
    out :=
      { known := known
        stage := stage
        instrId := id
        mnem := mnem
        nops := nops
        op0 := slot0
        op1 := slot1
        op2 := slot2
        fldTop := s.opcodeI.extractLsb' 12 4
        fldX := s.opcodeI.extractLsb' 8 4
        fldY := s.opcodeI.extractLsb' 4 4
        fldN := s.opcodeI.extractLsb' 0 4
        fldKk := s.opcodeI.extractLsb' 0 8
        fldAddr := s.opcodeI.extractLsb' 0 12 }
    settle := .settled
    pending := s.pending
    windows := s.windows }

/-- What an instruction rule (R100 to R150) says of mask, match value, operand fields and driven outputs: exactly the
matching words decode to the instruction; the instruction runs in every state and drives the record; and the step of
a state whose next word matches ends there. -/
def InstructionRule (mask value : Word) (read : Word → Instr) (stage : BitVec 2) (id : BitVec 6) (mnem : BitVec 5)
    (nops : BitVec 2) (slot0 slot1 slot2 : Word → Slot) : Prop :=
  ∀ (w : Word) (s : State),
    (decodeWord w = .known (read w) ↔ w &&& mask = value) ∧
    exec (read w) s = .next (settledTo true stage id mnem nops (slot0 w) (slot1 w) (slot2 w) s) ∧
    (s.nextWord &&& mask = value →
      step s = .next (settledTo true stage id mnem nops (slot0 s.nextWord) (slot1 s.nextWord) (slot2 s.nextWord)
        s.accept))

/-- The tagged form of what an instruction drives. -/
def taggedForm (i : Instr) (s : State) : Option Decoded :=
  match exec i s with
  | .next t => decodedOfOutputs t.out
  | .fault _ => none
  | .refused _ => none

/-- Whether a word, given as a number, decodes to an instruction. -/
def isKnownWord (n : Nat) : Bool :=
  match decodeWord (BitVec.ofNat 16 n) with
  | .known _ => true
  | .unknown _ => false

/-- How many of the 4096 words of a top nibble decode to an instruction. -/
def knownWordsOfTop (top : Nat) : Nat := (List.range 4096).countP fun low => isKnownWord (top * 4096 + low)

end Sys2Proof.Spec

open Sys2Proof Sys2Proof.Machine Sys2Proof.Spec

/-! ## Instruction rules -/

/-- R100, R101, R102, R109, R110: format `nnn`. -/
def Obligations.AddressFormatInstructionsFollowTheirRules : Prop :=
  InstructionRule 0xF000 0x0000 (fun w => .sys (w.extractLsb' 0 12)) 1 1 1 1 addressSlot emptySlot emptySlot ∧
  InstructionRule 0xF000 0x1000 (fun w => .jp (w.extractLsb' 0 12)) 1 2 2 1 addressSlot emptySlot emptySlot ∧
  InstructionRule 0xF000 0x2000 (fun w => .call (w.extractLsb' 0 12)) 1 3 3 1 addressSlot emptySlot emptySlot ∧
  InstructionRule 0xF000 0xA000 (fun w => .ldI (w.extractLsb' 0 12)) 1 10 6 2 (aliasSlot 0) addressSlot emptySlot ∧
  InstructionRule 0xF000 0xB000 (fun w => .jpV0 (w.extractLsb' 0 12)) 1 11 2 2 (aliasSlot 1) addressSlot emptySlot

/-- R103, R104, R106, R107, R111: format `xkk`. -/
def Obligations.RegisterByteInstructionsFollowTheirRules : Prop :=
  InstructionRule 0xF000 0x3000 (fun w => .seByte (w.extractLsb' 8 4) (w.extractLsb' 0 8))
    1 4 4 2 registerX byteSlot emptySlot ∧
  InstructionRule 0xF000 0x4000 (fun w => .sneByte (w.extractLsb' 8 4) (w.extractLsb' 0 8))
    1 5 5 2 registerX byteSlot emptySlot ∧
  InstructionRule 0xF000 0x6000 (fun w => .ldByte (w.extractLsb' 8 4) (w.extractLsb' 0 8))
    1 7 6 2 registerX byteSlot emptySlot ∧
  InstructionRule 0xF000 0x7000 (fun w => .addByte (w.extractLsb' 8 4) (w.extractLsb' 0 8))
    1 8 7 2 registerX byteSlot emptySlot ∧
  InstructionRule 0xF000 0xC000 (fun w => .rnd (w.extractLsb' 8 4) (w.extractLsb' 0 8))
    1 12 8 2 registerX byteSlot emptySlot

/-- R105, R108, R112: formats `xy` and `xyn`. -/
def Obligations.TwoRegisterStageOneInstructionsFollowTheirRules : Prop :=
  InstructionRule 0xF000 0x5000 (fun w => .seReg (w.extractLsb' 8 4) (w.extractLsb' 4 4))
    1 6 4 2 registerX registerY emptySlot ∧
  InstructionRule 0xF000 0x9000 (fun w => .sneReg (w.extractLsb' 8 4) (w.extractLsb' 4 4))
    1 9 5 2 registerX registerY emptySlot ∧
  InstructionRule 0xF000 0xD000 (fun w => .drw (w.extractLsb' 8 4) (w.extractLsb' 4 4) (w.extractLsb' 0 4))
    1 13 9 3 registerX registerY nibbleSlot

/-- R120 to R128: format `xyf`, stage 2; the functions next to theirs are Unknown. -/
def Obligations.AluGroupInstructionsFollowTheirRules : Prop :=
  InstructionRule 0xF00F 0x8000 (fun w => .ldReg (w.extractLsb' 8 4) (w.extractLsb' 4 4))
    2 14 6 2 registerX registerY emptySlot ∧
  InstructionRule 0xF00F 0x8001 (fun w => .orReg (w.extractLsb' 8 4) (w.extractLsb' 4 4))
    2 15 10 2 registerX registerY emptySlot ∧
  InstructionRule 0xF00F 0x8002 (fun w => .andReg (w.extractLsb' 8 4) (w.extractLsb' 4 4))
    2 16 11 2 registerX registerY emptySlot ∧
  InstructionRule 0xF00F 0x8003 (fun w => .xorReg (w.extractLsb' 8 4) (w.extractLsb' 4 4))
    2 17 12 2 registerX registerY emptySlot ∧
  InstructionRule 0xF00F 0x8004 (fun w => .addReg (w.extractLsb' 8 4) (w.extractLsb' 4 4))
    2 18 7 2 registerX registerY emptySlot ∧
  InstructionRule 0xF00F 0x8005 (fun w => .subReg (w.extractLsb' 8 4) (w.extractLsb' 4 4))
    2 19 13 2 registerX registerY emptySlot ∧
  InstructionRule 0xF00F 0x8006 (fun w => .shr (w.extractLsb' 8 4) (w.extractLsb' 4 4))
    2 20 14 2 registerX registerYOptional emptySlot ∧
  InstructionRule 0xF00F 0x8007 (fun w => .subn (w.extractLsb' 8 4) (w.extractLsb' 4 4))
    2 21 15 2 registerX registerY emptySlot ∧
  InstructionRule 0xF00F 0x800E (fun w => .shl (w.extractLsb' 8 4) (w.extractLsb' 4 4))
    2 22 16 2 registerX registerYOptional emptySlot ∧
  (∀ w : Word, w.extractLsb' 12 4 = 0x8 → w.extractLsb' 0 4 ∈ [0x8#4, 0x9#4, 0xA#4, 0xB#4, 0xC#4, 0xD#4, 0xF#4] →
    ∃ u, decodeWord w = .unknown u)

/-- R140 to R150: format `xff`, stage 3; the words their corner cases name are Unknown. -/
def Obligations.StageThreeInstructionsFollowTheirRules : Prop :=
  InstructionRule 0xF0FF 0xE09E (fun w => .skp (w.extractLsb' 8 4)) 3 23 17 1 registerX emptySlot emptySlot ∧
  InstructionRule 0xF0FF 0xE0A1 (fun w => .sknp (w.extractLsb' 8 4)) 3 24 18 1 registerX emptySlot emptySlot ∧
  InstructionRule 0xF0FF 0xF007 (fun w => .ldVxDt (w.extractLsb' 8 4)) 3 25 6 2 registerX (literalSlot 0) emptySlot ∧
  InstructionRule 0xF0FF 0xF00A (fun w => .ldVxK (w.extractLsb' 8 4)) 3 26 6 2 registerX (literalSlot 1) emptySlot ∧
  InstructionRule 0xF0FF 0xF015 (fun w => .ldDtVx (w.extractLsb' 8 4)) 3 27 6 2 (literalSlot 0) registerX emptySlot ∧
  InstructionRule 0xF0FF 0xF018 (fun w => .ldStVx (w.extractLsb' 8 4)) 3 28 6 2 (literalSlot 2) registerX emptySlot ∧
  InstructionRule 0xF0FF 0xF01E (fun w => .addI (w.extractLsb' 8 4)) 3 29 7 2 (aliasSlot 0) registerX emptySlot ∧
  InstructionRule 0xF0FF 0xF029 (fun w => .ldF (w.extractLsb' 8 4)) 3 30 6 2 (literalSlot 3) registerX emptySlot ∧
  InstructionRule 0xF0FF 0xF033 (fun w => .ldB (w.extractLsb' 8 4)) 3 31 6 2 (literalSlot 4) registerX emptySlot ∧
  InstructionRule 0xF0FF 0xF055 (fun w => .ldMemVx (w.extractLsb' 8 4)) 3 32 6 2 (literalSlot 5) registerX emptySlot ∧
  InstructionRule 0xF0FF 0xF065 (fun w => .ldVxMem (w.extractLsb' 8 4)) 3 33 6 2 registerX (literalSlot 5) emptySlot ∧
  (∀ w ∈ [0xE09F#16, 0xE19D#16, 0xE0A0#16, 0xE0A2#16, 0xF006#16, 0xF008#16, 0xF00B#16, 0xF016#16, 0xF017#16, 0xF019#16,
      0xF01F#16, 0xF01D#16, 0xF028#16, 0xF02A#16, 0xF032#16, 0xF034#16, 0xF054#16, 0xF056#16, 0xF064#16, 0xF066#16],
    ∃ u, decodeWord w = .unknown u)

/-! ## Decoding and encoding -/

/-- Words written out from the encoding patterns of R63 and R65 to R67 decode to the instructions they stand for, one for
each format. -/
def Obligations.WordsOfTheEncodingTableDecode : Prop :=
  decodeWord 0b0001_1010_1011_1100 = .known (.jp 0xABC) ∧
  decodeWord 0b0011_1010_0100_0010 = .known (.seByte 0xA 0x42) ∧
  decodeWord 0b0101_1010_1011_0111 = .known (.seReg 0xA 0xB) ∧
  decodeWord 0b1101_0000_0001_0101 = .known (.drw 0x0 0x1 0x5) ∧
  decodeWord 0b1000_0000_0001_0100 = .known (.addReg 0x0 0x1) ∧
  decodeWord 0b1111_1101_0110_0101 = .known (.ldVxMem 0xD) ∧
  decodeWord 0b1111_1111_1111_1111 = .unknown .fFunction

/-- Decoding the bytes of an encoded instruction gives it back with the bytes after it, for all 33 instructions. -/
def Obligations.DecodeOfEncodeIsTheInstruction : Prop :=
  ∀ (i : Instr) (rest : List Byte),
    decodeWord (encode i) = .known i ∧
    decodeBytes (encodeBytes i ++ rest) = .word (.known i) rest

/-- Encoding what a word decodes to gives the word back, less the bits its format ignores. -/
def Obligations.EncodeOfDecodeKeepsEveryUsedBit : Prop :=
  ∀ (w : Word) (i : Instr), decodeWord w = .known i → encode i = w &&& usedBits i

/-- R41: the word is big-endian, and the decoder reads the word of the first two bytes. -/
def Obligations.WordsAreAssembledHighByteFirst : Prop :=
  ∀ (b0 b1 : Byte) (rest : List Byte),
    (wordOfBytes b0 b1).extractLsb' 8 8 = b0 ∧
    (wordOfBytes b0 b1).extractLsb' 0 8 = b1 ∧
    bytesOfWord (wordOfBytes b0 b1) = [b0, b1] ∧
    decodeBytes (b0 :: b1 :: rest) = .word (decodeWord (wordOfBytes b0 b1)) rest

/-- The ignored bits that R73 derives from R65: stage 1 ignores the low nibble of `0x5xyn` and `0x9xyn`, and every word
`0x0000` to `0x0FFF` is SYS. -/
def Obligations.StageOneIgnoresBitsBelowItsFields : Prop :=
  (∀ v w : Word, (w.extractLsb' 12 4 = 0x5 ∨ w.extractLsb' 12 4 = 0x9) →
    v.extractLsb' 4 12 = w.extractLsb' 4 12 → decodeWord v = decodeWord w) ∧
  (∀ w : Word, w.extractLsb' 12 4 = 0x5 →
    decodeWord w = .known (.seReg (w.extractLsb' 8 4) (w.extractLsb' 4 4))) ∧
  (∀ w : Word, w.extractLsb' 12 4 = 0x9 →
    decodeWord w = .known (.sneReg (w.extractLsb' 8 4) (w.extractLsb' 4 4))) ∧
  (∀ w : Word, w ≤ 0x0FFF → decodeWord w = .known (.sys (w.extractLsb' 0 12)))

/-- R72, its list: the Unknown words are those of top nibble 8, E or F with no function of their stage. -/
def Obligations.UnknownSpaceIsTheListedWords : Prop :=
  ∀ w : Word,
    (∃ u, decodeWord w = .unknown u) ↔
      (w.extractLsb' 12 4 = 0x8 ∧ w.extractLsb' 0 4 ∈ [0x8#4, 0x9#4, 0xA#4, 0xB#4, 0xC#4, 0xD#4, 0xF#4]) ∨
      (w.extractLsb' 12 4 = 0xE ∧ w.extractLsb' 0 8 ∉ [0x9E#8, 0xA1#8]) ∨
      (w.extractLsb' 12 4 = 0xF ∧
        w.extractLsb' 0 8 ∉ [0x07#8, 0x0A#8, 0x15#8, 0x18#8, 0x1E#8, 0x29#8, 0x33#8, 0x55#8, 0x65#8])

/-- The counts of R70's table: known words per top nibble, and of the whole space. -/
def Obligations.KnownWordCountsPerTopNibble : Prop :=
  (∀ top < 16, knownWordsOfTop top =
    if top = 0x8 then 2304 else if top = 0xE then 32 else if top = 0xF then 144 else 4096) ∧
  ((List.range 16).map knownWordsOfTop).sum = 55728 ∧
  65536 - ((List.range 16).map knownWordsOfTop).sum = 9808

/-- The result does not depend on the order in which the cases of the three stages are tried (R70). -/
def Obligations.OrderOfCasesDoesNotChangeTheResult : Prop :=
  ∀ (cs : List Case) (w : Word), cs.Perm (stage1Cases ++ stage2Cases ++ stage3Cases) →
    decodeWord w =
      match readStage cs w with
      | some i => .known i
      | none => .unknown (unknownSpaceOf w)

/-! ## The reference structure -/

/-- R69: the rows of a stage share its mask and have distinct values, and at most one matches a word. -/
def Obligations.AtMostOneCaseOfAStageMatches : Prop :=
  ∀ stage ∈ [((0xF000 : Word), stage1Rows), (0xF00F, stage2Rows), (0xF0FF, stage3Rows)],
    (∀ r ∈ stage.2, r.mask = stage.1) ∧
    (stage.2.map MatchRow.value).Nodup ∧
    ∀ r ∈ stage.2, ∀ q ∈ stage.2, ∀ w : Word,
      w &&& stage.1 = r.value → w &&& stage.1 = q.value → r = q

/-- The 33 match conditions are pairwise exclusive over all words (R70, R75). -/
def Obligations.MatchConditionsArePairwiseExclusive : Prop :=
  matchRows.length = 33 ∧
  ∀ r ∈ matchRows, ∀ q ∈ matchRows, ∀ w : Word, matchLine r w = true → matchLine q w = true → r = q

/-- The id encoder equals the one-hot sum, and addresses no ROM word above 33 (R76, R26). -/
def Obligations.IdEncoderIsTheOneHotSum : Prop :=
  ∀ w : Word, encodeId w = oneHotId w ∧ encodeId w ≤ 33

/-- The reference structure's outputs equal the reference function's for every word (R7, R75 to R81). -/
def Obligations.StructureComputesTheReferenceFunction : Prop :=
  ∀ w : Word, structureOutputs w = refDecode w

/-- The ROM word of DRW, read by its layout (R77; 95_test_vectors.md section 2.2). -/
def Obligations.RomWordOfDrawReadsByItsLayout : Prop :=
  romMnem (rom 13) = 9 ∧ romNops (rom 13) = 3 ∧
  romSlot (rom 13) 0 = 0x120 ∧ romSlot (rom 13) 1 = 0x130 ∧ romSlot (rom 13) 2 = 0x2C0 ∧
  descKind (romSlot (rom 13) 1) = 2 ∧ descSel (romSlot (rom 13) 1) = 3 ∧ rom 0 = 0

/-! ## Steps -/

/-- When the next word decodes to an instruction, the step is that instruction's meaning in the state that has accepted
the word; accepting it puts it on `opcode_i` and takes it off the feed. A word the host places is the next word. -/
def Obligations.StepRunsTheDecodedInstruction : Prop :=
  ∀ (s : State) (i : Instr),
    s.accept.opcodeI = s.nextWord ∧ s.accept.pending = s.pending.tail ∧
    (decodeWord s.nextWord = .known i → step s = exec i s.accept) ∧
    (∀ n < 65536, decodeTableWord 16 n = some i →
      step (s.withFetchWord 16 n) = exec i (s.withFetchWord 16 n).accept)

/-- R80: for an Unknown word the step drives zeros, empty slots and the word's raw fields; ROM word 0 is all zeros. -/
def Obligations.UnknownWordsSettleToZerosAndRawFields : Prop :=
  rom 0 = 0 ∧
  ∀ s : State, (∀ r ∈ matchRows, s.nextWord &&& r.mask ≠ r.value) →
    step s = .next (settledTo false 0 0 0 0 ⟨0, 0, false⟩ ⟨0, 0, false⟩ ⟨0, 0, false⟩ s.accept)

/-- Every step settles, holds the presented word, and leaves on the ports the reference function of it (R181, R7). -/
def Obligations.StepSettlesToTheReferenceFunction : Prop :=
  ∀ s : State, ∃ t, step s = .next t ∧
    t.settle = .settled ∧ t.opcodeI = s.nextWord ∧ t.pending = s.pending.tail ∧ t.out = refDecode s.nextWord

/-- R160: no word causes a trap, a fault, a stall, a hang or a refusal; every step, every meaning and every hold of the
input answers a next state, and a step's outputs are settled. -/
def Obligations.NothingFaultsOrRefuses : Prop :=
  (∀ s : State, ∃ t, step s = .next t ∧ t.settle = .settled) ∧
  (∀ (i : Instr) (s : State), ∃ t, exec i s = .next t) ∧
  (∀ (d : Nat) (s : State), ∃ t, hold d s = .next t)

/-- The frame of all 33 instructions: an instruction drives the output ports and leaves everything else as it was; the
raw fields it drives are those of the word on `opcode_i`. -/
def Obligations.InstructionsChangeOnlyTheOutputs : Prop :=
  ∀ (i : Instr) (s t : State), exec i s = .next t →
    t.opcodeI = s.opcodeI ∧ t.pending = s.pending ∧ t.windows = s.windows ∧
    t.settle = .settled ∧ t.out.known = true ∧
    t.out.fldTop = s.opcodeI.extractLsb' 12 4 ∧
    t.out.fldX = s.opcodeI.extractLsb' 8 4 ∧
    t.out.fldY = s.opcodeI.extractLsb' 4 4 ∧
    t.out.fldN = s.opcodeI.extractLsb' 0 4 ∧
    t.out.fldKk = s.opcodeI.extractLsb' 0 8 ∧
    t.out.fldAddr = s.opcodeI.extractLsb' 0 12

/-- R30 with the source's field formulas of R61: for every word, Known or Unknown, the raw field outputs carry its
fields. -/
def Obligations.RawFieldsAreDrivenForEveryWord : Prop :=
  ∀ s : State, ∃ t, step s = .next t ∧
    t.out.fldTop = ((s.nextWord &&& 0xF000) >>> 12).setWidth 4 ∧
    t.out.fldX = ((s.nextWord &&& 0x0F00) >>> 8).setWidth 4 ∧
    t.out.fldY = ((s.nextWord &&& 0x00F0) >>> 4).setWidth 4 ∧
    t.out.fldN = (s.nextWord &&& 0x000F).setWidth 4 ∧
    t.out.fldKk = (s.nextWord &&& 0x00FF).setWidth 8 ∧
    t.out.fldAddr = (s.nextWord &&& 0x0FFF).setWidth 12

/-- The known flag is 1 exactly when some case of some stage matched the word (R24). -/
def Obligations.KnownFlagTellsWhetherACaseMatched : Prop :=
  ∀ s : State, ∃ t, step s = .next t ∧
    (t.out.known = true ↔
      (∃ r ∈ stage1Rows, s.nextWord &&& 0xF000 = r.value) ∨
      (∃ r ∈ stage2Rows, s.nextWord &&& 0xF00F = r.value) ∨
      (∃ r ∈ stage3Rows, s.nextWord &&& 0xF0FF = r.value))

/-- R25: the stage output is the stage whose case matched the word, 0 for Unknown. -/
def Obligations.StageOutputNamesTheMatchingStage : Prop :=
  ∀ s : State, ∃ t, step s = .next t ∧
    (t.out.stage = 1 ↔ ∃ r ∈ stage1Rows, s.nextWord &&& 0xF000 = r.value) ∧
    (t.out.stage = 2 ↔ ∃ r ∈ stage2Rows, s.nextWord &&& 0xF00F = r.value) ∧
    (t.out.stage = 3 ↔ ∃ r ∈ stage3Rows, s.nextWord &&& 0xF0FF = r.value) ∧
    (t.out.stage = 0 ↔ t.out.known = false)

/-- Every settled record is one the spec allows: ids, codes, kinds, values, optional bits and slots in their ranges, and
it reads back as one of the 33 forms or Unknown (R26 to R29, R32, R33, R36, R37, R62). -/
def Obligations.SettledRecordsAreWellFormed : Prop :=
  ∀ s : State, ∃ t, step s = .next t ∧ t.out.wf = true ∧
    ∃ d, decodedOfOutputs t.out = some d ∧ d.wf = true ∧ (d = .unknown ↔ t.out.known = false)

/-- R21: the outputs depend on the presented word alone, not on any earlier word or any other part of the state. -/
def Obligations.OutputsDependOnThePresentedWordAlone : Prop :=
  ∀ s₁ s₂ t₁ t₂ : State, s₁.nextWord = s₂.nextWord → step s₁ = .next t₁ → step s₂ = .next t₂ → t₁.out = t₂.out

/-- R44: decoding a word again, with nothing else presented, changes nothing. -/
def Obligations.DecodingAgainChangesNothing : Prop :=
  ∀ s t : State, s.pending.tail = [] → step s = .next t → step t = .next t

/-- The run over a feed gives each word its own record, whatever words came before it (R183, R21). -/
def Obligations.FeedRunGivesEachWordItsOwnRecord : Prop :=
  ∀ (before after : List Word) (w : Word) (s : State), s.pending = before ++ w :: after →
    ∃ t, Host.Core.run core (before.length + 1) s = .next t ∧
      t.out = refDecode w ∧ t.opcodeI = w ∧ t.pending = after

/-! ## Settling -/

/-- At power-up the outputs have not settled, nothing is pending, and the invariant holds. The open window at 0 elapsed is
the model's reading of R181 (log 4), the empty feed its choice (log 5). -/
def Obligations.PowerUpMeetsTheInterfaceInvariant : Prop :=
  State.reset.Inv ∧ State.reset.settle = .settling 0 ∧ State.reset.pending = []

/-- R181 as an invariant: every step, every change of the input and every passing of time keeps it that settled outputs
are the reference function of the input word and that an open window is shorter than `T_DECODE`. -/
def Obligations.SettledOutputsFollowTheInputAtAllTimes : Prop :=
  (∀ s t : State, s.Inv → step s = .next t → t.Inv) ∧
  (∀ (s : State) (w : Word), s.Inv → (s.present w).Inv) ∧
  (∀ s : State, s.Inv → s.accept.Inv) ∧
  (∀ (d : Nat) (s t : State), s.Inv → hold d s = .next t → t.Inv)

/-- After a change of the input, holding it for `T_DECODE` or more settles the outputs to the reference function of the
new word, in one stretch or in two; holding it for less leaves the window open (R184). -/
def Obligations.OutputsSettleWithinTheSettleTime : Prop :=
  ∀ (s : State) (w : Word), w ≠ s.opcodeI →
    (∀ d, Config.tDecode ≤ d → ∃ t, hold d (s.present w) = .next t ∧
      t.settle = .settled ∧ t.opcodeI = w ∧ t.out = refDecode w) ∧
    (∀ d, d < Config.tDecode → ∃ t, hold d (s.present w) = .next t ∧ t.settle = .settling d ∧ t.opcodeI = w) ∧
    (∀ d e, Config.tDecode ≤ d + e → ∃ u t, hold d (s.present w) = .next u ∧ hold e u = .next t ∧
      t.settle = .settled ∧ t.opcodeI = w ∧ t.out = refDecode w)

/-- Settled outputs stay while the input is held, and presenting the word already there opens no window (R184; log 9). -/
def Obligations.SettledOutputsStayWhileTheInputIsHeld : Prop :=
  ∀ s : State, s.settle = .settled → s.present s.opcodeI = s ∧ ∀ d, hold d s = .next s

/-- A step is the same as accepting the next word and holding it for at least `T_DECODE`: how log 1 reads R181, R184 and
R186. -/
def Obligations.StepIsAcceptingAndHoldingForTheSettleTime : Prop :=
  ∀ (s : State) (d : Nat), s.Inv → Config.tDecode ≤ d → step s = hold d s.accept

/-! ## Operands and codes -/

/-- A slot carries an operand and its optional bit without loss, both ways (R36, R37). -/
def Obligations.SlotsCarryOperandsWithoutLoss : Prop :=
  (∀ a : Arg, argOfSlot (slotOfArg a) = some a) ∧
  (∀ (s : Slot) (a : Arg), argOfSlot s = some a → slotOfArg a = s)

/-- R27's numbering: the 18 mnemonics have the codes 1 to 18 in the listed order and no other code names one; code 0 is
output exactly for Unknown, and codes 19 to 31 never. -/
def Obligations.MnemonicCodesAreOneToEighteen : Prop :=
  [Mnemonic.sys, .jp, .call, .se, .sne, .ld, .add, .rnd, .drw, .or, .and, .xor, .sub, .shr, .subn, .shl, .skp,
    .sknp].map mnemonicCode = [1, 2, 3, 4, 5, 6, 7, 8, 9, 10, 11, 12, 13, 14, 15, 16, 17, 18] ∧
  (∀ m : Mnemonic, mnemonicOfCode (mnemonicCode m) = some m) ∧
  (∀ c : BitVec 5, (c = 0 ∨ 18 < c) → mnemonicOfCode c = none) ∧
  (∀ s : State, ∃ t, step s = .next t ∧ t.out.mnem ≤ 18 ∧ (t.out.mnem = 0 ↔ t.out.known = false))

/-- The source's tagged form tells any two instructions apart, as the port record does (R36, R27). -/
def Obligations.TaggedFormsTellInstructionsApart : Prop :=
  ∀ (i j : Instr) (s : State), taggedForm i s = taggedForm j s → i = j

/-! ## Outside the block: formatter and walker -/

/-- R93: the styled line with its markers stripped equals the plain line. -/
def Obligations.StyledLineStripsToThePlainLine : Prop :=
  ∀ line : List Piece, stripMarkers (styledText line) = plainText line

/-- After every step the ports display as a line that begins with the word's 4 lowercase digits and a space; an Unknown
word's line ends in the marker (R85, R92; the layout is the formatter's, log 12). -/
def Obligations.EverySettledRecordDisplays : Prop :=
  ∀ s : State, ∃ t line, step s = .next t ∧ displayOfOutputs t.out = some line ∧
    (plainText line).take 5 = hex4 s.nextWord ++ [' '] ∧
    (t.out.known = false → plainText line = hex4 s.nextWord ++ [' ', 'U', 'n', 'k', 'n', 'o', 'w', 'n'])

/-- SHR and SHL display their second register in the bracket form for every register, zero among them (R86). -/
def Obligations.ShiftsDisplayTheBracketForm : Prop :=
  ∀ (x y : Nibble) (s : State), ∃ t line, exec (.shr x y) s = .next t ∧ displayOfOutputs t.out = some line ∧
    plainText line = hex4 s.opcodeI ++ [' ', ' ', 'S', 'H', 'R', ' ', 'V', hexUpper x] ++
      [Char.ofNat 0x7B, ',', ' ', 'V', hexUpper y, Char.ofNat 0x7D] ∧
    ∃ u line', exec (.shl x y) s = .next u ∧ displayOfOutputs u.out = some line' ∧
      plainText line' = hex4 s.opcodeI ++ [' ', ' ', 'S', 'H', 'L', ' ', 'V', hexUpper x] ++
        [Char.ofNat 0x7B, ',', ' ', 'V', hexUpper y, Char.ofNat 0x7D]

/-- The walker's words come two bytes at a time from even offsets, high byte first, and only whole words come (R41, R43);
a buffer of even length has its words. -/
def Obligations.WalkerWordsComeFromEvenOffsets : Prop :=
  (∀ (buffer : List Byte) (words : List Word), walkerWords buffer = some words →
    buffer.length = 2 * words.length ∧
    ∀ k < words.length, ∃ b0 b1, buffer[2 * k]? = some b0 ∧ buffer[2 * k + 1]? = some b1 ∧
      words[k]? = some (wordOfBytes b0 b1)) ∧
  (∀ buffer : List Byte, buffer.length % 2 = 0 → ∃ words, walkerWords buffer = some words)

/-- A buffer below the minimum size is an error before the block is used (R162); of the others, one with a final odd byte
is the model's own error, and an even one is fed whole, after what was pending, and changes no port (log 14, log 5). -/
def Obligations.WalkerChecksTheBufferBeforeTheBlock : Prop :=
  ∀ (buffer : List Byte) (s : State),
    (buffer.length < 512 → s.feedBuffer buffer = .error .bufferTooShort) ∧
    (∀ words, 512 ≤ buffer.length → walkerWords buffer = some words →
      ∃ t, s.feedBuffer buffer = .ok t ∧ t.pending = s.pending ++ words ∧ t.opcodeI = s.opcodeI ∧ t.out = s.out ∧
        t.settle = s.settle ∧ t.windows = s.windows) ∧
    (512 ≤ buffer.length → buffer.length % 2 = 1 → s.feedBuffer buffer = .error .oddTail)
end

