-- ==== Sys2Proof/Laws/Fields.lean ====
section
/-! SUPPORT. Words and their fields as numbers, and the three masks: a masked word is the word's fields with zeros
between, so every case of the dispatch is a question about fields. -/

namespace Sys2Proof

/-! Fields as numbers. -/

theorem fieldTop_toNat (w : Word) : w.fieldTop.toNat = w.toNat / 4096 % 16 := by
  simp [Word.fieldTop, BitVec.extractLsb'_toNat, Nat.shiftRight_eq_div_pow]

theorem fieldX_toNat (w : Word) : w.fieldX.toNat = w.toNat / 256 % 16 := by
  simp [Word.fieldX, BitVec.extractLsb'_toNat, Nat.shiftRight_eq_div_pow]

theorem fieldY_toNat (w : Word) : w.fieldY.toNat = w.toNat / 16 % 16 := by
  simp [Word.fieldY, BitVec.extractLsb'_toNat, Nat.shiftRight_eq_div_pow]

theorem fieldN_toNat (w : Word) : w.fieldN.toNat = w.toNat % 16 := by
  simp [Word.fieldN, BitVec.extractLsb'_toNat]

theorem fieldKk_toNat (w : Word) : w.fieldKk.toNat = w.toNat % 256 := by
  simp [Word.fieldKk, BitVec.extractLsb'_toNat]

theorem fieldAddr_toNat (w : Word) : w.fieldAddr.toNat = w.toNat % 4096 := by
  simp [Word.fieldAddr, BitVec.extractLsb'_toNat]

/-! Packed words as numbers. -/

theorem append_toNat {m k : Nat} (a : BitVec m) (b : BitVec k) : (a ++ b).toNat = a.toNat * 2 ^ k + b.toNat := by
  rw [BitVec.toNat_append, Nat.shiftLeft_eq, Nat.mul_comm, Nat.two_pow_add_eq_or_of_lt b.isLt]

theorem packXyn_toNat (t x y n : Nibble) :
    (packXyn t x y n).toNat = t.toNat * 4096 + x.toNat * 256 + y.toNat * 16 + n.toNat := by
  have h := append_toNat (t ++ x) (y ++ n)
  have h1 := append_toNat t x
  have h2 := append_toNat y n
  have e : (packXyn t x y n).toNat = ((t ++ x) ++ (y ++ n)).toNat := rfl
  omega

theorem packXkk_toNat (t x : Nibble) (kk : Byte) :
    (packXkk t x kk).toNat = t.toNat * 4096 + x.toNat * 256 + kk.toNat := by
  have h := append_toNat (t ++ x) kk
  have h1 := append_toNat t x
  have e : (packXkk t x kk).toNat = ((t ++ x) ++ kk).toNat := rfl
  omega

theorem packNnn_toNat (t : Nibble) (addr : Addr) : (packNnn t addr).toNat = t.toNat * 4096 + addr.toNat := by
  have h := append_toNat t addr
  have e : (packNnn t addr).toNat = (t ++ addr).toNat := rfl
  omega

/-! A word is its fields. -/

theorem packXyn_fields (w : Word) : packXyn w.fieldTop w.fieldX w.fieldY w.fieldN = w := by
  apply BitVec.eq_of_toNat_eq
  have := w.isLt
  rw [packXyn_toNat, fieldTop_toNat, fieldX_toNat, fieldY_toNat, fieldN_toNat]
  omega

theorem packXkk_fields (w : Word) : packXkk w.fieldTop w.fieldX w.fieldKk = w := by
  apply BitVec.eq_of_toNat_eq
  have := w.isLt
  rw [packXkk_toNat, fieldTop_toNat, fieldX_toNat, fieldKk_toNat]
  omega

theorem packNnn_fields (w : Word) : packNnn w.fieldTop w.fieldAddr = w := by
  apply BitVec.eq_of_toNat_eq
  have := w.isLt
  rw [packNnn_toNat, fieldTop_toNat, fieldAddr_toNat]
  omega

/-! The fields of a packed word. -/

section
variable (t x y n : Nibble) (kk : Byte) (addr : Addr)

@[simp] theorem packXyn_fieldTop : (packXyn t x y n).fieldTop = t := by
  apply BitVec.eq_of_toNat_eq
  rw [fieldTop_toNat, packXyn_toNat]
  omega

@[simp] theorem packXyn_fieldX : (packXyn t x y n).fieldX = x := by
  apply BitVec.eq_of_toNat_eq
  rw [fieldX_toNat, packXyn_toNat]
  omega

@[simp] theorem packXyn_fieldY : (packXyn t x y n).fieldY = y := by
  apply BitVec.eq_of_toNat_eq
  rw [fieldY_toNat, packXyn_toNat]
  omega

@[simp] theorem packXyn_fieldN : (packXyn t x y n).fieldN = n := by
  apply BitVec.eq_of_toNat_eq
  rw [fieldN_toNat, packXyn_toNat]
  omega

@[simp] theorem packXkk_fieldTop : (packXkk t x kk).fieldTop = t := by
  apply BitVec.eq_of_toNat_eq
  rw [fieldTop_toNat, packXkk_toNat]
  omega

@[simp] theorem packXkk_fieldX : (packXkk t x kk).fieldX = x := by
  apply BitVec.eq_of_toNat_eq
  rw [fieldX_toNat, packXkk_toNat]
  omega

@[simp] theorem packXkk_fieldKk : (packXkk t x kk).fieldKk = kk := by
  apply BitVec.eq_of_toNat_eq
  rw [fieldKk_toNat, packXkk_toNat]
  omega

@[simp] theorem packNnn_fieldTop : (packNnn t addr).fieldTop = t := by
  apply BitVec.eq_of_toNat_eq
  rw [fieldTop_toNat, packNnn_toNat]
  omega

@[simp] theorem packNnn_fieldAddr : (packNnn t addr).fieldAddr = addr := by
  apply BitVec.eq_of_toNat_eq
  rw [fieldAddr_toNat, packNnn_toNat]
  omega

end

/-! Masked words. -/

/-- Two words are equal when their four nibble fields are. -/
theorem word_ext {v w : Word} (ht : v.fieldTop = w.fieldTop) (hx : v.fieldX = w.fieldX) (hy : v.fieldY = w.fieldY)
    (hn : v.fieldN = w.fieldN) : v = w := by
  rw [← packXyn_fields v, ← packXyn_fields w, ht, hx, hy, hn]

theorem fieldTop_and (v w : Word) : Word.fieldTop (v &&& w) = v.fieldTop &&& w.fieldTop :=
  BitVec.extractLsb'_and

theorem fieldX_and (v w : Word) : Word.fieldX (v &&& w) = v.fieldX &&& w.fieldX :=
  BitVec.extractLsb'_and

theorem fieldY_and (v w : Word) : Word.fieldY (v &&& w) = v.fieldY &&& w.fieldY :=
  BitVec.extractLsb'_and

theorem fieldN_and (v w : Word) : Word.fieldN (v &&& w) = v.fieldN &&& w.fieldN :=
  BitVec.extractLsb'_and

/-- The byte field is the two low nibbles (30_encoding.md R62). -/
theorem fieldKk_eq (w : Word) : w.fieldKk = w.fieldY ++ w.fieldN := by
  apply BitVec.eq_of_toNat_eq
  have h := append_toNat w.fieldY w.fieldN
  rw [fieldKk_toNat]
  rw [fieldY_toNat, fieldN_toNat] at h
  omega

/-- A masked comparison is four comparisons of nibble fields. -/
theorem and_eq_iff_fields (w mask v : Word) :
    w &&& mask = v ↔
      w.fieldTop &&& mask.fieldTop = v.fieldTop ∧ w.fieldX &&& mask.fieldX = v.fieldX ∧
        w.fieldY &&& mask.fieldY = v.fieldY ∧ w.fieldN &&& mask.fieldN = v.fieldN := by
  constructor
  · rintro rfl
    simp [fieldTop_and, fieldX_and, fieldY_and, fieldN_and]
  · rintro ⟨ht, hx, hy, hn⟩
    apply word_ext <;> simp [fieldTop_and, fieldX_and, fieldY_and, fieldN_and, ht, hx, hy, hn]

/-- A word with a byte field is a word of nibble fields. -/
theorem packXkk_eq (t x : Nibble) (kk : Byte) :
    packXkk t x kk = packXyn t x (kk.extractLsb' 4 4) (kk.extractLsb' 0 4) := by
  apply BitVec.eq_of_toNat_eq
  rw [packXkk_toNat, packXyn_toNat]
  simp only [BitVec.extractLsb'_toNat, Nat.shiftRight_eq_div_pow]
  omega

/-- A word with an address field is a word of nibble fields. -/
theorem packNnn_eq (t : Nibble) (addr : Addr) :
    packNnn t addr = packXyn t (addr.extractLsb' 8 4) (addr.extractLsb' 4 4) (addr.extractLsb' 0 4) := by
  apply BitVec.eq_of_toNat_eq
  rw [packNnn_toNat, packXyn_toNat]
  simp only [BitVec.extractLsb'_toNat, Nat.shiftRight_eq_div_pow]
  omega

/-- What the stage-1 mask leaves of a word (30_encoding.md R65). -/
theorem packXyn_and_F000 (t x y n : Nibble) : packXyn t x y n &&& 0xF000#16 = packXyn t 0 0 0 := by
  rw [and_eq_iff_fields]
  simp only [packXyn_fieldTop, packXyn_fieldX, packXyn_fieldY, packXyn_fieldN]
  exact ⟨BitVec.and_allOnes (x := t), BitVec.and_zero, BitVec.and_zero, BitVec.and_zero⟩

/-- What the stage-2 mask leaves of a word (30_encoding.md R66). -/
theorem packXyn_and_F00F (t x y n : Nibble) : packXyn t x y n &&& 0xF00F#16 = packXyn t 0 0 n := by
  rw [and_eq_iff_fields]
  simp only [packXyn_fieldTop, packXyn_fieldX, packXyn_fieldY, packXyn_fieldN]
  exact ⟨BitVec.and_allOnes (x := t), BitVec.and_zero, BitVec.and_zero, BitVec.and_allOnes (x := n)⟩

/-- What the stage-3 mask leaves of a word (30_encoding.md R67). -/
theorem packXyn_and_F0FF (t x y n : Nibble) : packXyn t x y n &&& 0xF0FF#16 = packXyn t 0 y n := by
  rw [and_eq_iff_fields]
  simp only [packXyn_fieldTop, packXyn_fieldX, packXyn_fieldY, packXyn_fieldN]
  exact ⟨BitVec.and_allOnes (x := t), BitVec.and_zero, BitVec.and_allOnes (x := y), BitVec.and_allOnes (x := n)⟩

/-- What the stage-3 mask fixes, the smaller masks fix: two submask steps. -/
theorem and_F000_of_and_F00F {w v : Word} (h : w &&& 0xF00F#16 = v) : w &&& 0xF000#16 = v &&& 0xF000#16 := by
  rw [← h, BitVec.and_assoc]
  rfl

theorem and_F000_of_and_F0FF {w v : Word} (h : w &&& 0xF0FF#16 = v) : w &&& 0xF000#16 = v &&& 0xF000#16 := by
  rw [← h, BitVec.and_assoc]
  rfl

theorem and_F00F_of_and_F0FF {w v : Word} (h : w &&& 0xF0FF#16 = v) : w &&& 0xF00F#16 = v &&& 0xF00F#16 := by
  rw [← h, BitVec.and_assoc]
  rfl

/-- The word the walker assembles from the two bytes of a word is that word (20_memory.md R41). -/
theorem wordOfBytes_bytes (w : Word) : wordOfBytes (w.extractLsb' 8 8) (w.extractLsb' 0 8) = w := by
  apply BitVec.eq_of_toNat_eq
  have h := append_toNat (w.extractLsb' 8 8) (w.extractLsb' 0 8)
  have e : (wordOfBytes (w.extractLsb' 8 8) (w.extractLsb' 0 8)).toNat =
    (w.extractLsb' 8 8 ++ w.extractLsb' 0 8).toNat := rfl
  have := w.isLt
  simp only [BitVec.extractLsb'_toNat, Nat.shiftRight_eq_div_pow] at h
  omega

end Sys2Proof
end

