-- ==== Sys2Proof/Laws/Decode.lean ====
section
/-! SUPPORT. What the dispatch can answer, said once: a known instruction is read by a case that fits, and Unknown means
that no case of any stage fits. -/

namespace Sys2Proof

/-- The cases of all three stages, in the order they are tried (30_encoding.md R68). -/
def allCases : List Case := stage1Cases ++ stage2Cases ++ stage3Cases

theorem readStage_append (cs ds : List Case) (w : Word) :
    readStage (cs ++ ds) w = (readStage cs w).or (readStage ds w) := by
  induction cs with
  | nil => rfl
  | cons c rest ih =>
    simp only [List.cons_append, readStage]
    split
    · rfl
    · exact ih

theorem readStage_some {cs : List Case} {w : Word} {i : Instr} (h : readStage cs w = some i) :
    ∃ c ∈ cs, c.fits w = true ∧ i = c.read w := by
  induction cs with
  | nil => simp [readStage] at h
  | cons c rest ih =>
    simp only [readStage] at h
    split at h
    · next hc => exact ⟨c, by simp, hc, by simpa using h.symm⟩
    · obtain ⟨d, hd, hf, hr⟩ := ih h
      exact ⟨d, by simp [hd], hf, hr⟩

theorem readStage_none_iff {cs : List Case} {w : Word} :
    readStage cs w = none ↔ ∀ c ∈ cs, c.fits w = false := by
  induction cs with
  | nil => simp [readStage]
  | cons c rest ih =>
    simp only [readStage]
    split
    · next hc => simp [hc]
    · next hc => simp [ih, hc]

/-- The three stages in turn are one list of cases in turn. -/
theorem decodeWord_eq (w : Word) :
    decodeWord w =
      match readStage allCases w with
      | some i => .known i
      | none => .unknown (unknownSpaceOf w) := by
  simp only [allCases, readStage_append, decodeWord]
  cases readStage stage1Cases w <;> cases readStage stage2Cases w <;> cases readStage stage3Cases w <;> rfl

theorem decodeWord_known {w : Word} {i : Instr} (h : decodeWord w = .known i) :
    ∃ c ∈ allCases, c.fits w = true ∧ i = c.read w := by
  rw [decodeWord_eq] at h
  split at h
  · next j hj =>
    cases h
    exact readStage_some hj
  · cases h

theorem decodeWord_unknown {w : Word} {u : UnknownSpace} (h : decodeWord w = .unknown u) :
    u = unknownSpaceOf w ∧ ∀ c ∈ allCases, c.fits w = false := by
  rw [decodeWord_eq] at h
  split at h
  · cases h
  · next hn =>
    cases h
    exact ⟨rfl, readStage_none_iff.mp hn⟩

@[simp] theorem decodeBytes_word (hi lo : Byte) (rest : List Byte) :
    decodeBytes (hi :: lo :: rest) = .word (decodeWord (wordOfBytes hi lo)) rest := rfl

/-- Laying a word out in bytes and decoding them decodes the word. -/
theorem decodeBytes_bytesOfWord (w : Word) (rest : List Byte) :
    decodeBytes (bytesOfWord w ++ rest) = .word (decodeWord w) rest := by
  show decodeBytes (_ :: _ :: rest) = _
  rw [decodeBytes_word, wordOfBytes_bytes]

end Sys2Proof
end

