-- ==== Sys2Proof/Laws/State.lean ====
section
/-! SUPPORT. What each update of State leaves in each field, and what each shared operation can do. -/

namespace Sys2Proof.Machine

/-! Driving the ports. -/

@[simp] theorem State.drive_out (o : Outputs) (s : State) : (s.drive o).out = o := rfl
@[simp] theorem State.drive_settle (o : Outputs) (s : State) : (s.drive o).settle = .settled := rfl
@[simp] theorem State.drive_opcodeI (o : Outputs) (s : State) : (s.drive o).opcodeI = s.opcodeI := rfl
@[simp] theorem State.drive_pending (o : Outputs) (s : State) : (s.drive o).pending = s.pending := rfl
@[simp] theorem State.drive_windows (o : Outputs) (s : State) : (s.drive o).windows = s.windows := rfl

theorem driveKnown_eq_drive (st : Stage) (id : BitVec 6) (m : Mnemonic) (args : List Arg) (s : State) :
    driveKnown st id m args s = s.drive (portsOf (stageCode st) id (mnemonicCode m) args s.opcodeI) := rfl

theorem driveUnknown_eq_drive (s : State) : driveUnknown s = s.drive (portsOf 0 0 0 [] s.opcodeI) := rfl

/-! Presenting a word. -/

theorem State.present_same {w : Word} {s : State} (h : w = s.opcodeI) : s.present w = s := by
  simp [State.present, h]

theorem State.present_change {w : Word} {s : State} (h : w ≠ s.opcodeI) :
    s.present w = { s with
      opcodeI := w, out := Config.unsettled s.windows, settle := .settling 0, windows := s.windows + 1 } := by
  simp [State.present, h]

@[simp] theorem State.present_opcodeI (w : Word) (s : State) : (s.present w).opcodeI = w := by
  unfold State.present
  split
  · next h => exact h.symm
  · rfl

@[simp] theorem State.present_pending (w : Word) (s : State) : (s.present w).pending = s.pending := by
  unfold State.present
  split <;> rfl

/-! Accepting the next word. -/

@[simp] theorem State.accept_opcodeI (s : State) : s.accept.opcodeI = s.nextWord := by
  unfold State.accept State.nextWord
  split <;> simp

@[simp] theorem State.accept_pending (s : State) : s.accept.pending = s.pending.tail := by
  unfold State.accept
  split
  · next h => simp [h]
  · next h => simp [h]

theorem State.accept_of_empty {s : State} (h : s.pending = []) : s.accept = s := by
  simp [State.accept, h]

theorem State.nextWord_of_empty {s : State} (h : s.pending = []) : s.nextWord = s.opcodeI := by
  simp [State.nextWord, h]

theorem State.nextWord_of_cons {s : State} {w : Word} {rest : List Word} (h : s.pending = w :: rest) :
    s.nextWord = w := by
  simp [State.nextWord, h]

@[simp] theorem State.withFetchWord_nextWord (s : State) (nbits w : Nat) :
    (s.withFetchWord nbits w).nextWord = tableWord nbits w := rfl

/-! Evaluation and steps. -/

theorem evaluate_of_known {s : State} {i : Instr} (h : decodeWord s.opcodeI = .known i) : evaluate s = exec i s := by
  simp [evaluate, h]

theorem evaluate_of_unknown {s : State} {u : UnknownSpace} (h : decodeWord s.opcodeI = .unknown u) :
    evaluate s = .next (driveUnknown s) := by
  simp [evaluate, h]

end Sys2Proof.Machine
end

