-- ==== Sys2Proof/Laws/Ops.lean ====
section
/-! SUPPORT. What a meaning, an evaluation, a step and the passing of time can do, said once. -/

namespace Sys2Proof.Machine

/-- Every instruction's meaning drives the ports for some stage, id, mnemonic and operands, and does nothing else. -/
theorem exec_drives (i : Instr) (s : State) :
    ∃ st id m args, exec i s = .next (driveKnown st id m args s) := by
  cases i <;> exact ⟨_, _, _, _, rfl⟩

/-- An evaluation settles the outputs to some record, and does nothing else. -/
theorem evaluate_drives (s : State) : ∃ o, evaluate s = .next (s.drive o) := by
  unfold evaluate
  split
  · obtain ⟨st, id, m, args, h⟩ := exec_drives _ s
    exact ⟨_, h⟩
  · exact ⟨_, rfl⟩

/-- A step settles the outputs of the word it accepts. -/
theorem step_drives (s : State) : ∃ o, step s = .next (s.accept.drive o) := evaluate_drives s.accept

theorem hold_settled {s : State} (d : Nat) (h : s.settle = .settled) : hold d s = .next s := by
  simp [hold, h]

/-- Holding past the settle time evaluates. -/
theorem hold_long {s : State} {d e : Nat} (h : s.settle = .settling e) (hd : Config.tDecode ≤ e + d) :
    hold d s = evaluate s := by
  simp [hold, h, hd]

/-- Holding for less leaves the window open. -/
theorem hold_short {s : State} {d e : Nat} (h : s.settle = .settling e) (hd : e + d < Config.tDecode) :
    hold d s = .next { s with
      out := Config.unsettled s.windows, settle := .settling (e + d), windows := s.windows + 1 } := by
  simp [hold, h, Nat.not_le.mpr hd]

/-- The words of a buffer and one more pair of bytes. -/
theorem walkerWords_cons_cons (hi lo : Byte) (rest : List Byte) :
    walkerWords (hi :: lo :: rest) = (walkerWords rest).map (wordOfBytes hi lo :: ·) := rfl

end Sys2Proof.Machine
end

