-- ==== Sys2Proof/Laws/PerInstr.lean ====
section
/-! SUPPORT. Statements about every instruction, one lemma per constructor. -/

namespace Sys2Proof.Laws

/-- Keeping every bit keeps the word. -/
theorem and_all_bits (w : Word) : w &&& 0xFFFF#16 = w := BitVec.and_allOnes (x := w)

/-- A word whose low nibble is 0 keeps its value under the mask of format `xy`. -/
theorem packXyn_and_FFF0 (t x y : Nibble) : packXyn t x y 0 &&& 0xFFF0#16 = packXyn t x y 0 := by
  rw [and_eq_iff_fields]
  simp only [packXyn_fieldTop, packXyn_fieldX, packXyn_fieldY, packXyn_fieldN]
  exact ⟨BitVec.and_allOnes (x := t), BitVec.and_allOnes (x := x), BitVec.and_allOnes (x := y), rfl⟩

/-- The encoder sets no bit that the instruction's format ignores (30_encoding.md R63, R73; log 10). -/
def EncodeUsedBits.Statement (i : Instr) : Prop := encode i &&& usedBits i = encode i

theorem EncodeUsedBits.sys (addr : Addr) : EncodeUsedBits.Statement (.sys addr) := and_all_bits _

theorem EncodeUsedBits.jp (addr : Addr) : EncodeUsedBits.Statement (.jp addr) := and_all_bits _

theorem EncodeUsedBits.call (addr : Addr) : EncodeUsedBits.Statement (.call addr) := and_all_bits _

theorem EncodeUsedBits.seByte (x : Nibble) (kk : Byte) : EncodeUsedBits.Statement (.seByte x kk) := and_all_bits _

theorem EncodeUsedBits.sneByte (x : Nibble) (kk : Byte) : EncodeUsedBits.Statement (.sneByte x kk) := and_all_bits _

theorem EncodeUsedBits.seReg (x y : Nibble) : EncodeUsedBits.Statement (.seReg x y) := packXyn_and_FFF0 _ x y

theorem EncodeUsedBits.ldByte (x : Nibble) (kk : Byte) : EncodeUsedBits.Statement (.ldByte x kk) := and_all_bits _

theorem EncodeUsedBits.addByte (x : Nibble) (kk : Byte) : EncodeUsedBits.Statement (.addByte x kk) := and_all_bits _

theorem EncodeUsedBits.sneReg (x y : Nibble) : EncodeUsedBits.Statement (.sneReg x y) := packXyn_and_FFF0 _ x y

theorem EncodeUsedBits.ldI (addr : Addr) : EncodeUsedBits.Statement (.ldI addr) := and_all_bits _

theorem EncodeUsedBits.jpV0 (addr : Addr) : EncodeUsedBits.Statement (.jpV0 addr) := and_all_bits _

theorem EncodeUsedBits.rnd (x : Nibble) (kk : Byte) : EncodeUsedBits.Statement (.rnd x kk) := and_all_bits _

theorem EncodeUsedBits.drw (x y n : Nibble) : EncodeUsedBits.Statement (.drw x y n) := and_all_bits _

theorem EncodeUsedBits.ldReg (x y : Nibble) : EncodeUsedBits.Statement (.ldReg x y) := and_all_bits _

theorem EncodeUsedBits.orReg (x y : Nibble) : EncodeUsedBits.Statement (.orReg x y) := and_all_bits _

theorem EncodeUsedBits.andReg (x y : Nibble) : EncodeUsedBits.Statement (.andReg x y) := and_all_bits _

theorem EncodeUsedBits.xorReg (x y : Nibble) : EncodeUsedBits.Statement (.xorReg x y) := and_all_bits _

theorem EncodeUsedBits.addReg (x y : Nibble) : EncodeUsedBits.Statement (.addReg x y) := and_all_bits _

theorem EncodeUsedBits.subReg (x y : Nibble) : EncodeUsedBits.Statement (.subReg x y) := and_all_bits _

theorem EncodeUsedBits.shr (x y : Nibble) : EncodeUsedBits.Statement (.shr x y) := and_all_bits _

theorem EncodeUsedBits.subn (x y : Nibble) : EncodeUsedBits.Statement (.subn x y) := and_all_bits _

theorem EncodeUsedBits.shl (x y : Nibble) : EncodeUsedBits.Statement (.shl x y) := and_all_bits _

theorem EncodeUsedBits.skp (x : Nibble) : EncodeUsedBits.Statement (.skp x) := and_all_bits _

theorem EncodeUsedBits.sknp (x : Nibble) : EncodeUsedBits.Statement (.sknp x) := and_all_bits _

theorem EncodeUsedBits.ldVxDt (x : Nibble) : EncodeUsedBits.Statement (.ldVxDt x) := and_all_bits _

theorem EncodeUsedBits.ldVxK (x : Nibble) : EncodeUsedBits.Statement (.ldVxK x) := and_all_bits _

theorem EncodeUsedBits.ldDtVx (x : Nibble) : EncodeUsedBits.Statement (.ldDtVx x) := and_all_bits _

theorem EncodeUsedBits.ldStVx (x : Nibble) : EncodeUsedBits.Statement (.ldStVx x) := and_all_bits _

theorem EncodeUsedBits.addI (x : Nibble) : EncodeUsedBits.Statement (.addI x) := and_all_bits _

theorem EncodeUsedBits.ldF (x : Nibble) : EncodeUsedBits.Statement (.ldF x) := and_all_bits _

theorem EncodeUsedBits.ldB (x : Nibble) : EncodeUsedBits.Statement (.ldB x) := and_all_bits _

theorem EncodeUsedBits.ldMemVx (x : Nibble) : EncodeUsedBits.Statement (.ldMemVx x) := and_all_bits _

theorem EncodeUsedBits.ldVxMem (x : Nibble) : EncodeUsedBits.Statement (.ldVxMem x) := and_all_bits _

end Sys2Proof.Laws
end

