-- ==== Sys2Proof/Tests/Slice0.lean ====
section
/-! SUPPORT. Tests: words written out from the encoding patterns of 30_encoding.md R63 and R65 to R67, the worked examples
of R100 to R150, vectors of 95_test_vectors.md, the well-formedness smoke test, and the witnesses of the statements'
hypotheses. -/

namespace Sys2Proof.Tests

open Sys2Proof.Machine

/-- Power-up with one word to be presented. -/
def presenting (w : Word) : State := { State.reset with pending := [w] }

/-- The outputs after one step on a word. -/
def outputsOn (w : Word) : Option Outputs :=
  match step (presenting w) with
  | .next t => some t.out
  | .fault _ => none
  | .refused _ => none

/-- The plain display line after one step on a word. -/
def lineOn (w : Word) : Option (List Char) := ((outputsOn w).bind displayOfOutputs).map plainText

/-! The words of the encoding patterns; operand fields as in the rules' examples. -/

/-- R100: pattern `0000 aaaa aaaa aaaa`. -/
theorem test_decode_sys : decodeWord 0b0000_0001_0010_0011 = .known (.sys 0x123) := by decide

/-- R101: pattern `0001 aaaa aaaa aaaa`. -/
theorem test_decode_jp : decodeWord 0b0001_1010_1011_1100 = .known (.jp 0xABC) := by decide

/-- R102: pattern `0010 aaaa aaaa aaaa`. -/
theorem test_decode_call : decodeWord 0b0010_1111_0000_0000 = .known (.call 0xF00) := by decide

/-- R103: pattern `0011 xxxx kkkk kkkk`. -/
theorem test_decode_seByte : decodeWord 0b0011_1010_0100_0010 = .known (.seByte 0xA 0x42) := by decide

/-- R104: pattern `0100 xxxx kkkk kkkk`. -/
theorem test_decode_sneByte : decodeWord 0b0100_1011_0000_0111 = .known (.sneByte 0xB 0x7) := by decide

/-- R105: pattern `0101 xxxx yyyy iiii`. -/
theorem test_decode_seReg : decodeWord 0b0101_1010_1011_0000 = .known (.seReg 0xA 0xB) := by decide

/-- R106: pattern `0110 xxxx kkkk kkkk`. -/
theorem test_decode_ldByte : decodeWord 0b0110_1010_0000_0101 = .known (.ldByte 0xA 0x5) := by decide

/-- R107: pattern `0111 xxxx kkkk kkkk`. -/
theorem test_decode_addByte : decodeWord 0b0111_1010_0000_0001 = .known (.addByte 0xA 0x1) := by decide

/-- R108: pattern `1001 xxxx yyyy iiii`. -/
theorem test_decode_sneReg : decodeWord 0b1001_0001_0010_0000 = .known (.sneReg 0x1 0x2) := by decide

/-- R109: pattern `1010 aaaa aaaa aaaa`. -/
theorem test_decode_ldI : decodeWord 0b1010_0010_0001_1110 = .known (.ldI 0x21E) := by decide

/-- R110: pattern `1011 aaaa aaaa aaaa`. -/
theorem test_decode_jpV0 : decodeWord 0b1011_0001_0010_0011 = .known (.jpV0 0x123) := by decide

/-- R111: pattern `1100 xxxx kkkk kkkk`. -/
theorem test_decode_rnd : decodeWord 0b1100_0011_1111_1111 = .known (.rnd 0x3 0xFF) := by decide

/-- R112: pattern `1101 xxxx yyyy nnnn`. -/
theorem test_decode_drw : decodeWord 0b1101_0000_0001_0101 = .known (.drw 0x0 0x1 0x5) := by decide

/-- R120: pattern `1000 xxxx yyyy 0000`. -/
theorem test_decode_ldReg : decodeWord 0b1000_0001_0010_0000 = .known (.ldReg 0x1 0x2) := by decide

/-- R121: pattern `1000 xxxx yyyy 0001`. -/
theorem test_decode_orReg : decodeWord 0b1000_0001_0010_0001 = .known (.orReg 0x1 0x2) := by decide

/-- R122: pattern `1000 xxxx yyyy 0010`. -/
theorem test_decode_andReg : decodeWord 0b1000_0010_0011_0010 = .known (.andReg 0x2 0x3) := by decide

/-- R123: pattern `1000 xxxx yyyy 0011`. -/
theorem test_decode_xorReg : decodeWord 0b1000_1010_1011_0011 = .known (.xorReg 0xA 0xB) := by decide

/-- R124: pattern `1000 xxxx yyyy 0100`. -/
theorem test_decode_addReg : decodeWord 0b1000_0000_0001_0100 = .known (.addReg 0x0 0x1) := by decide

/-- R125: pattern `1000 xxxx yyyy 0101`. -/
theorem test_decode_subReg : decodeWord 0b1000_0001_0010_0101 = .known (.subReg 0x1 0x2) := by decide

/-- R126: pattern `1000 xxxx yyyy 0110`. -/
theorem test_decode_shr : decodeWord 0b1000_0001_0010_0110 = .known (.shr 0x1 0x2) := by decide

/-- R127: pattern `1000 xxxx yyyy 0111`. -/
theorem test_decode_subn : decodeWord 0b1000_0001_0010_0111 = .known (.subn 0x1 0x2) := by decide

/-- R128: pattern `1000 xxxx yyyy 1110`. -/
theorem test_decode_shl : decodeWord 0b1000_0001_0010_1110 = .known (.shl 0x1 0x2) := by decide

/-- R140: pattern `1110 xxxx 1001 1110`. -/
theorem test_decode_skp : decodeWord 0b1110_0011_1001_1110 = .known (.skp 0x3) := by decide

/-- R141: pattern `1110 xxxx 1010 0001`. -/
theorem test_decode_sknp : decodeWord 0b1110_0100_1010_0001 = .known (.sknp 0x4) := by decide

/-- R142: pattern `1111 xxxx 0000 0111`. -/
theorem test_decode_ldVxDt : decodeWord 0b1111_0101_0000_0111 = .known (.ldVxDt 0x5) := by decide

/-- R143: pattern `1111 xxxx 0000 1010`. -/
theorem test_decode_ldVxK : decodeWord 0b1111_0110_0000_1010 = .known (.ldVxK 0x6) := by decide

/-- R144: pattern `1111 xxxx 0001 0101`. -/
theorem test_decode_ldDtVx : decodeWord 0b1111_0111_0001_0101 = .known (.ldDtVx 0x7) := by decide

/-- R145: pattern `1111 xxxx 0001 1000`. -/
theorem test_decode_ldStVx : decodeWord 0b1111_1000_0001_1000 = .known (.ldStVx 0x8) := by decide

/-- R146: pattern `1111 xxxx 0001 1110`. -/
theorem test_decode_addI : decodeWord 0b1111_1001_0001_1110 = .known (.addI 0x9) := by decide

/-- R147: pattern `1111 xxxx 0010 1001`. -/
theorem test_decode_ldF : decodeWord 0b1111_1010_0010_1001 = .known (.ldF 0xA) := by decide

/-- R148: pattern `1111 xxxx 0011 0011`. -/
theorem test_decode_ldB : decodeWord 0b1111_1011_0011_0011 = .known (.ldB 0xB) := by decide

/-- R149: pattern `1111 xxxx 0101 0101`. -/
theorem test_decode_ldMemVx : decodeWord 0b1111_1100_0101_0101 = .known (.ldMemVx 0xC) := by decide

/-- R150: pattern `1111 xxxx 0110 0101`. -/
theorem test_decode_ldVxMem : decodeWord 0b1111_1101_0110_0101 = .known (.ldVxMem 0xD) := by decide

/-! The records of the rules' worked examples. -/

/-- R100, Example. -/
theorem test_record_sys : outputsOn 0x0123 =
    some ⟨true, 1, 1, 1, 1, ⟨1, 0x123, false⟩, ⟨0, 0, false⟩, ⟨0, 0, false⟩, 0x0, 0x1, 0x2, 0x3, 0x23, 0x123⟩ := by decide

/-- R101, Example. -/
theorem test_record_jp : outputsOn 0x1ABC =
    some ⟨true, 1, 2, 2, 1, ⟨1, 0xABC, false⟩, ⟨0, 0, false⟩, ⟨0, 0, false⟩, 0x1, 0xA, 0xB, 0xC, 0xBC, 0xABC⟩ := by decide

/-- R102, Example. -/
theorem test_record_call : outputsOn 0x2F00 =
    some ⟨true, 1, 3, 3, 1, ⟨1, 0xF00, false⟩, ⟨0, 0, false⟩, ⟨0, 0, false⟩, 0x2, 0xF, 0x0, 0x0, 0x00, 0xF00⟩ := by decide

/-- R103, Example. -/
theorem test_record_seByte : outputsOn 0x3A42 =
    some ⟨true, 1, 4, 4, 2, ⟨2, 0x00A, false⟩, ⟨4, 0x042, false⟩, ⟨0, 0, false⟩, 0x3, 0xA, 0x4, 0x2, 0x42, 0xA42⟩ := by decide

/-- R104, Example. -/
theorem test_record_sneByte : outputsOn 0x4B07 =
    some ⟨true, 1, 5, 5, 2, ⟨2, 0x00B, false⟩, ⟨4, 0x007, false⟩, ⟨0, 0, false⟩, 0x4, 0xB, 0x0, 0x7, 0x07, 0xB07⟩ := by decide

/-- R105, Example. -/
theorem test_record_seReg : outputsOn 0x5AB0 =
    some ⟨true, 1, 6, 4, 2, ⟨2, 0x00A, false⟩, ⟨2, 0x00B, false⟩, ⟨0, 0, false⟩, 0x5, 0xA, 0xB, 0x0, 0xB0, 0xAB0⟩ := by decide

/-- R106, Example. -/
theorem test_record_ldByte : outputsOn 0x6A05 =
    some ⟨true, 1, 7, 6, 2, ⟨2, 0x00A, false⟩, ⟨4, 0x005, false⟩, ⟨0, 0, false⟩, 0x6, 0xA, 0x0, 0x5, 0x05, 0xA05⟩ := by decide

/-- R107, Example. -/
theorem test_record_addByte : outputsOn 0x7A01 =
    some ⟨true, 1, 8, 7, 2, ⟨2, 0x00A, false⟩, ⟨4, 0x001, false⟩, ⟨0, 0, false⟩, 0x7, 0xA, 0x0, 0x1, 0x01, 0xA01⟩ := by decide

/-- R108, Example. -/
theorem test_record_sneReg : outputsOn 0x9120 =
    some ⟨true, 1, 9, 5, 2, ⟨2, 0x001, false⟩, ⟨2, 0x002, false⟩, ⟨0, 0, false⟩, 0x9, 0x1, 0x2, 0x0, 0x20, 0x120⟩ := by decide

/-- R109, Example. -/
theorem test_record_ldI : outputsOn 0xA21E =
    some ⟨true, 1, 10, 6, 2, ⟨3, 0x000, false⟩, ⟨1, 0x21E, false⟩, ⟨0, 0, false⟩, 0xA, 0x2, 0x1, 0xE, 0x1E, 0x21E⟩ := by decide

/-- R110, Example. -/
theorem test_record_jpV0 : outputsOn 0xB123 =
    some ⟨true, 1, 11, 2, 2, ⟨3, 0x001, false⟩, ⟨1, 0x123, false⟩, ⟨0, 0, false⟩, 0xB, 0x1, 0x2, 0x3, 0x23, 0x123⟩ := by decide

/-- R111, Example. -/
theorem test_record_rnd : outputsOn 0xC3FF =
    some ⟨true, 1, 12, 8, 2, ⟨2, 0x003, false⟩, ⟨4, 0x0FF, false⟩, ⟨0, 0, false⟩, 0xC, 0x3, 0xF, 0xF, 0xFF, 0x3FF⟩ := by decide

/-- R112, Example. -/
theorem test_record_drw : outputsOn 0xD015 =
    some ⟨true, 1, 13, 9, 3, ⟨2, 0x000, false⟩, ⟨2, 0x001, false⟩, ⟨5, 0x005, false⟩, 0xD, 0x0, 0x1, 0x5, 0x15, 0x015⟩ := by decide

/-- R120, Example. -/
theorem test_record_ldReg : outputsOn 0x8120 =
    some ⟨true, 2, 14, 6, 2, ⟨2, 0x001, false⟩, ⟨2, 0x002, false⟩, ⟨0, 0, false⟩, 0x8, 0x1, 0x2, 0x0, 0x20, 0x120⟩ := by decide

/-- R121, Example. -/
theorem test_record_orReg : outputsOn 0x8121 =
    some ⟨true, 2, 15, 10, 2, ⟨2, 0x001, false⟩, ⟨2, 0x002, false⟩, ⟨0, 0, false⟩, 0x8, 0x1, 0x2, 0x1, 0x21, 0x121⟩ := by decide

/-- R122, Example. -/
theorem test_record_andReg : outputsOn 0x8232 =
    some ⟨true, 2, 16, 11, 2, ⟨2, 0x002, false⟩, ⟨2, 0x003, false⟩, ⟨0, 0, false⟩, 0x8, 0x2, 0x3, 0x2, 0x32, 0x232⟩ := by decide

/-- R123, Example. -/
theorem test_record_xorReg : outputsOn 0x8AB3 =
    some ⟨true, 2, 17, 12, 2, ⟨2, 0x00A, false⟩, ⟨2, 0x00B, false⟩, ⟨0, 0, false⟩, 0x8, 0xA, 0xB, 0x3, 0xB3, 0xAB3⟩ := by decide

/-- R124, Example. -/
theorem test_record_addReg : outputsOn 0x8014 =
    some ⟨true, 2, 18, 7, 2, ⟨2, 0x000, false⟩, ⟨2, 0x001, false⟩, ⟨0, 0, false⟩, 0x8, 0x0, 0x1, 0x4, 0x14, 0x014⟩ := by decide

/-- R125, Example. -/
theorem test_record_subReg : outputsOn 0x8125 =
    some ⟨true, 2, 19, 13, 2, ⟨2, 0x001, false⟩, ⟨2, 0x002, false⟩, ⟨0, 0, false⟩, 0x8, 0x1, 0x2, 0x5, 0x25, 0x125⟩ := by decide

/-- R126, Example. -/
theorem test_record_shr : outputsOn 0x8126 =
    some ⟨true, 2, 20, 14, 2, ⟨2, 0x001, false⟩, ⟨2, 0x002, true⟩, ⟨0, 0, false⟩, 0x8, 0x1, 0x2, 0x6, 0x26, 0x126⟩ := by decide

/-- R127, Example. -/
theorem test_record_subn : outputsOn 0x8127 =
    some ⟨true, 2, 21, 15, 2, ⟨2, 0x001, false⟩, ⟨2, 0x002, false⟩, ⟨0, 0, false⟩, 0x8, 0x1, 0x2, 0x7, 0x27, 0x127⟩ := by decide

/-- R128, Example. -/
theorem test_record_shl : outputsOn 0x812E =
    some ⟨true, 2, 22, 16, 2, ⟨2, 0x001, false⟩, ⟨2, 0x002, true⟩, ⟨0, 0, false⟩, 0x8, 0x1, 0x2, 0xE, 0x2E, 0x12E⟩ := by decide

/-- R140, Example. -/
theorem test_record_skp : outputsOn 0xE39E =
    some ⟨true, 3, 23, 17, 1, ⟨2, 0x003, false⟩, ⟨0, 0, false⟩, ⟨0, 0, false⟩, 0xE, 0x3, 0x9, 0xE, 0x9E, 0x39E⟩ := by decide

/-- R141, Example. -/
theorem test_record_sknp : outputsOn 0xE4A1 =
    some ⟨true, 3, 24, 18, 1, ⟨2, 0x004, false⟩, ⟨0, 0, false⟩, ⟨0, 0, false⟩, 0xE, 0x4, 0xA, 0x1, 0xA1, 0x4A1⟩ := by decide

/-- R142, Example. -/
theorem test_record_ldVxDt : outputsOn 0xF507 =
    some ⟨true, 3, 25, 6, 2, ⟨2, 0x005, false⟩, ⟨6, 0x000, false⟩, ⟨0, 0, false⟩, 0xF, 0x5, 0x0, 0x7, 0x07, 0x507⟩ := by decide

/-- R143, Example. -/
theorem test_record_ldVxK : outputsOn 0xF60A =
    some ⟨true, 3, 26, 6, 2, ⟨2, 0x006, false⟩, ⟨6, 0x001, false⟩, ⟨0, 0, false⟩, 0xF, 0x6, 0x0, 0xA, 0x0A, 0x60A⟩ := by decide

/-- R144, Example. -/
theorem test_record_ldDtVx : outputsOn 0xF715 =
    some ⟨true, 3, 27, 6, 2, ⟨6, 0x000, false⟩, ⟨2, 0x007, false⟩, ⟨0, 0, false⟩, 0xF, 0x7, 0x1, 0x5, 0x15, 0x715⟩ := by decide

/-- R145, Example. -/
theorem test_record_ldStVx : outputsOn 0xF818 =
    some ⟨true, 3, 28, 6, 2, ⟨6, 0x002, false⟩, ⟨2, 0x008, false⟩, ⟨0, 0, false⟩, 0xF, 0x8, 0x1, 0x8, 0x18, 0x818⟩ := by decide

/-- R146, Example. -/
theorem test_record_addI : outputsOn 0xF91E =
    some ⟨true, 3, 29, 7, 2, ⟨3, 0x000, false⟩, ⟨2, 0x009, false⟩, ⟨0, 0, false⟩, 0xF, 0x9, 0x1, 0xE, 0x1E, 0x91E⟩ := by decide

/-- R147, Example. -/
theorem test_record_ldF : outputsOn 0xFA29 =
    some ⟨true, 3, 30, 6, 2, ⟨6, 0x003, false⟩, ⟨2, 0x00A, false⟩, ⟨0, 0, false⟩, 0xF, 0xA, 0x2, 0x9, 0x29, 0xA29⟩ := by decide

/-- R148, Example. -/
theorem test_record_ldB : outputsOn 0xFB33 =
    some ⟨true, 3, 31, 6, 2, ⟨6, 0x004, false⟩, ⟨2, 0x00B, false⟩, ⟨0, 0, false⟩, 0xF, 0xB, 0x3, 0x3, 0x33, 0xB33⟩ := by decide

/-- R149, Example. -/
theorem test_record_ldMemVx : outputsOn 0xFC55 =
    some ⟨true, 3, 32, 6, 2, ⟨6, 0x005, false⟩, ⟨2, 0x00C, false⟩, ⟨0, 0, false⟩, 0xF, 0xC, 0x5, 0x5, 0x55, 0xC55⟩ := by decide

/-- R150, Example. -/
theorem test_record_ldVxMem : outputsOn 0xFD65 =
    some ⟨true, 3, 33, 6, 2, ⟨2, 0x00D, false⟩, ⟨6, 0x005, false⟩, ⟨0, 0, false⟩, 0xF, 0xD, 0x6, 0x5, 0x65, 0xD65⟩ := by decide

/-! Unknown words, and words that the decoder must not tell apart (95_test_vectors.md sections 2.3, 2.5, 2.7). -/

theorem test_unknown_8008 : decodeWord 0x8008 = .unknown .aluFunction := by decide

theorem test_unknown_E19D : decodeWord 0xE19D = .unknown .eFunction := by decide

theorem test_unknown_F066 : decodeWord 0xF066 = .unknown .fFunction := by decide

/-- E2: `0xFFFF` is Unknown and its raw fields are driven. -/
theorem test_record_unknown : outputsOn 0xFFFF =
    some ⟨false, 0, 0, 0, 0, ⟨0, 0, false⟩, ⟨0, 0, false⟩, ⟨0, 0, false⟩, 0xF, 0xF, 0xF, 0xF, 0xFF, 0xFFF⟩ := by decide

/-- R73: `0x00E0` is SYS. -/
theorem test_00E0_is_sys : decodeWord 0x00E0 = .known (.sys 0x0E0) := by decide

/-- R73: the low nibble of `0x9xyn` is ignored. -/
theorem test_9ABF_ignores_n : decodeWord 0x9ABF = .known (.sneReg 0xA 0xB) := by decide

/-- The host's numbering of a word: bit 0 is the least significant bit. -/
theorem test_table_word : decodeTableWord 16 0x8456 = some (.shr 0x4 0x5) := by decide

/-- A word the host places is the one the next step runs: DRW of R112's example. -/
theorem test_fetch_word : (match step (State.reset.withFetchWord 16 0xD015) with
    | .next t => some (t.out.instrId, t.opcodeI, t.pending)
    | .fault _ => none
    | .refused _ => none) = some (13, 0xD015, []) := by decide

/-- R41: bytes `3A 42` are the word `0x3A42`. -/
theorem test_bytes : decodeBytes [0x3A, 0x42, 0x12] = .word (.known (.seByte 0xA 0x42)) [0x12] := by decide

theorem test_no_whole_word : decodeBytes [0x3A] = .noWholeWord := by decide

/-- The encodings of the examples, from R63. -/
theorem test_encode : [Instr.jp 0xABC, .seByte 0xA 0x42, .drw 0 1 5, .shl 1 2, .ldVxMem 0xD].map encode =
    [0x1ABC, 0x3A42, 0xD015, 0x812E, 0xFD65] := by decide

/-! Parameters (R8) and the ROM (95_test_vectors.md section 2.2). -/

theorem test_parameters : stage1Rows.length = 13 ∧ stage2Rows.length = 9 ∧ stage3Rows.length = 11 ∧
    matchRows.length = Config.nInstr ∧ mnemonicsInOrder.length = Config.nMnemonics ∧
    [stage1Cases, stage2Cases, stage3Cases].length = Config.nStages ∧
    ((romStage1 ++ romStage2 ++ romStage3).map fun r => (romNops r).toNat).max? = some Config.maxOperands := by decide

theorem test_rom_rows : [1, 4, 10, 13, 20, 26, 32, 0].map rom =
    [0x0149000000, 0x0492094000, 0x069E024000, 0x09D204C2C0, 0x0E9204E000, 0x06920D8400, 0x06B6548000, 0] := by decide

theorem test_structure_8456 : some (structureOutputs 0x8456) = outputsOn 0x8456 := by decide

/-! Display lines (E1, E3, E5) and styling (R93). -/

/-- E1. -/
theorem test_line_jp : lineOn 0x1ABC = some ['1', 'a', 'b', 'c', ' ', ' ', ' ', 'J', 'P', ' ', '$', '0', 'A', 'B', 'C'] := by decide

/-- E3, as 90_conflicts.md C4 decides. -/
theorem test_line_se : lineOn 0x3A42 = some ['3', 'a', '4', '2', ' ', ' ', ' ', 'S', 'E', ' ', 'V', 'A', ',', ' ', '#', '4', '2'] := by decide

/-- E5. -/
theorem test_line_shr : lineOn 0x8FF6 = some ['8', 'f', 'f', '6', ' ', ' ', 'S', 'H', 'R', ' ', 'V', 'F', Char.ofNat 0x7B, ',', ' ', 'V', 'F', Char.ofNat 0x7D] := by decide

/-- E2. -/
theorem test_line_unknown : lineOn 0xFFFF = some ['f', 'f', 'f', 'f', ' ', 'U', 'n', 'k', 'n', 'o', 'w', 'n'] := by decide

theorem test_styled_piece : styledPiece ⟨some .register, ['V', 'A']⟩ =
    [.startMarker .register, .char 'V', .char 'A', .endMarker .register] := by decide

/-! The walker (20_memory.md R41, R45; 60_exceptions.md R162). -/

/-- The first three words of program P1. -/
theorem test_walker_words : walkerWords [0x6A, 0x00, 0x6B, 0x0A, 0x7A, 0x01] = some [0x6A00, 0x6B0A, 0x7A01] := by decide

theorem test_walker_odd_tail : walkerWords [0x6A, 0x00, 0x6B] = none := by decide

theorem test_display_address : displayAddress 10 = 0x20A := by decide

theorem test_short_buffer : (match State.feedBuffer [0x6A, 0x00] State.reset with
    | .error e => some e
    | .ok _ => none) = some .bufferTooShort := by decide

/-! Well-formedness: an ill-formed term for each check, which the check refuses. -/

theorem test_wf_shape : Decoded.wf (.known .sys [vReg 3]) = false := by decide

theorem test_wf_optional : Decoded.wf (.known .or [vReg 1, vRegOptional 2]) = false := by decide

theorem test_wf_decoded_accepts : Decoded.wf (.known .shr [vReg 1, vRegOptional 2]) = true := by decide

theorem test_wf_empty_slot : Slot.emptyOk ⟨0, 5, false⟩ = false ∧ Slot.wf ⟨0, 5, false⟩ = false := by decide

theorem test_wf_kind : Slot.kindOk ⟨7, 0, false⟩ = false ∧ Slot.wf ⟨7, 0, false⟩ = false := by decide

theorem test_wf_value : Slot.valueOk ⟨2, 16, false⟩ = false ∧ Slot.valueOk ⟨4, 256, false⟩ = false ∧
    Slot.valueOk ⟨3, 2, false⟩ = false ∧ Slot.valueOk ⟨6, 6, false⟩ = false := by decide

/-- The record of JP `0xABC` (R101). -/
def jpRecord : Outputs :=
  ⟨true, 1, 2, 2, 1, ⟨1, 0xABC, false⟩, ⟨0, 0, false⟩, ⟨0, 0, false⟩, 0x1, 0xA, 0xB, 0xC, 0xBC, 0xABC⟩

theorem test_wf_accepts : jpRecord.wf = true := by decide

theorem test_wf_id : Outputs.idOk { jpRecord with instrId := 34 } = false := by decide

theorem test_wf_mnem : Outputs.mnemOk { jpRecord with mnem := 19 } = false := by decide

theorem test_wf_known : Outputs.knownOk { jpRecord with known := false } = false := by decide

theorem test_wf_stage : Outputs.stageOk { jpRecord with stage := 2 } = false := by decide

theorem test_wf_nops : Outputs.nopsOk { jpRecord with nops := 2 } = false := by decide

theorem test_wf_opt : Outputs.optOk { jpRecord with op0 := ⟨1, 0xABC, true⟩ } = false := by decide

theorem test_wf_fields : Outputs.fieldsOk { jpRecord with fldY := 0 } = false := by decide

/-! Witnesses: states and operands that meet the hypotheses of the statements. -/

/-- InstructionRule: for each of the 33 rules, a word and a state whose next word matches. -/
theorem witness_every_rule_matches_a_next_word :
    (matchRows.all fun r => (presenting r.value).nextWord &&& r.mask == r.value) = true := by decide

/-- AluGroupInstructionsFollowTheirRules and StageThreeInstructionsFollowTheirRules, last clauses. -/
theorem witness_neighbouring_words :
    (0x8008 : Word).extractLsb' 12 4 = 0x8 ∧ (0x8008 : Word).extractLsb' 0 4 ∈ [0x8#4, 0x9#4, 0xF#4] ∧
    (0x8FFF : Word).extractLsb' 12 4 = 0x8 ∧ (0x8FFF : Word).extractLsb' 0 4 ∈ [0x8#4, 0x9#4, 0xF#4] ∧
    0xF066 ∈ [0xE09F#16, 0xF066#16] := by decide

/-- EncodeOfDecodeKeepsEveryUsedBit, with an ignored nibble that is not 0. -/
theorem witness_decodes_known : decodeWord 0x5AB7 = .known (.seReg 0xA 0xB) := by decide

/-- StageOneIgnoresBitsBelowItsFields: each clause, the last at both ends of its range. -/
theorem witness_ignored_bits :
    (0x5AB7 : Word).extractLsb' 12 4 = 0x5 ∧ (0x9AB0 : Word).extractLsb' 12 4 = 0x9 ∧
    (0x5AB0 : Word).extractLsb' 4 12 = (0x5AB7 : Word).extractLsb' 4 12 ∧
    (0x0000 : Word) ≤ 0x0FFF ∧ (0x0FFF : Word) ≤ 0x0FFF := by decide

/-- OrderOfCasesDoesNotChangeTheResult: the stages tried in another order. -/
theorem witness_reordered_cases :
    (stage2Cases ++ stage1Cases ++ stage3Cases).Perm (stage1Cases ++ stage2Cases ++ stage3Cases) :=
  List.perm_append_comm.append_right stage3Cases

/-- KnownWordCountsPerTopNibble: the top nibbles 0 and 15. -/
theorem witness_top_nibbles : (0 : Nat) < 16 ∧ 15 < 16 := by decide

/-- AtMostOneCaseOfAStageMatches and MatchConditionsArePairwiseExclusive: a row of each stage and a word it matches. -/
theorem witness_rows_match :
    (stage1Rows.any fun r => matchLine r 0x1ABC) = true ∧ (stage2Rows.any fun r => matchLine r 0x8456) = true ∧
    (stage3Rows.any fun r => matchLine r 0xFD65) = true := by decide

/-- StepRunsTheDecodedInstruction: the next word decodes, presented and as the host places it. -/
theorem witness_next_word_decodes :
    decodeWord (presenting 0xFD65).nextWord = .known (.ldVxMem 0xD) ∧
    decodeWord State.reset.nextWord = .known (.sys 0) ∧ decodeTableWord 16 0xFFFF = none ∧
    decodeTableWord 16 0xDFFF = some (.drw 0xF 0xF 0xF) := by decide

/-- UnknownWordsSettleToZerosAndRawFields: a next word that no case matches. -/
theorem witness_unknown_next_word :
    (matchRows.all fun r => (presenting 0xFFFF).nextWord &&& r.mask != r.value) = true := by decide

/-- InstructionsChangeOnlyTheOutputs: an instruction answers a next state. -/
theorem witness_exec_answers : ∃ t, exec (.drw 1 2 3) State.reset = .next t := ⟨_, rfl⟩

/-- OutputsDependOnThePresentedWordAlone: two different states with one next word, both stepping. -/
theorem witness_same_next_word :
    (presenting 0x8456).nextWord = ({ State.reset with opcodeI := 0x8456 } : State).nextWord ∧
    (∃ t, step (presenting 0x8456) = .next t) ∧
    ∃ t, step ({ State.reset with opcodeI := 0x8456 } : State) = .next t :=
  ⟨rfl, ⟨_, rfl⟩, ⟨_, rfl⟩⟩

/-- DecodingAgainChangesNothing: one word left to present, and none. -/
theorem witness_nothing_after :
    (presenting 0x8456).pending.tail = [] ∧ State.reset.pending.tail = [] ∧
    (∃ t, step (presenting 0x8456) = .next t) ∧ ∃ t, step State.reset = .next t :=
  ⟨rfl, rfl, ⟨_, rfl⟩, ⟨_, rfl⟩⟩

/-- FeedRunGivesEachWordItsOwnRecord: a word with words before and after it. -/
theorem witness_feed :
    ({ State.reset with pending := [0x6A00, 0xFFFF, 0x1204] } : State).pending = [0x6A00] ++ 0xFFFF :: [0x1204] := rfl

/-- The invariant holds of a settled state and of one with an open window. -/
theorem witness_invariant :
    ({ State.reset with opcodeI := 0x1ABC, out := refDecode 0x1ABC, settle := .settled } : State).Inv ∧
    ({ State.reset with settle := .settling 0 } : State).Inv :=
  by
  refine ⟨⟨fun _ => rfl, ?_⟩, ⟨?_, ?_⟩⟩
  · intro e h
    cases h
  · intro h
    cases h
  · intro e h
    cases h
    exact Nat.succ_pos _

/-- SettledOutputsFollowTheInputAtAllTimes: from the settled state of `witness_invariant`, a step and a hold answer. -/
theorem witness_invariant_moves :
    ∃ s : State, s.Inv ∧ (∃ t, step s = .next t) ∧ ∃ t, hold 3 s = .next t :=
  ⟨{ State.reset with opcodeI := 0x1ABC, out := refDecode 0x1ABC, settle := .settled }, witness_invariant.1,
    ⟨_, rfl⟩, ⟨_, rfl⟩⟩

/-- OutputsSettleWithinTheSettleTime and StepIsAcceptingAndHoldingForTheSettleTime: a changed word, holds on both sides of
the boundary, and two that reach it together. -/
theorem witness_hold_times :
    (0x1ABC : Word) ≠ State.reset.opcodeI ∧ Config.tDecode ≤ Config.tDecode ∧
    Config.tDecode - 1 < Config.tDecode ∧ Config.tDecode ≤ (Config.tDecode - 1) + 1 := by
  have : 0 < Config.tDecode := Nat.succ_pos _
  refine ⟨by decide, Nat.le_refl _, by omega, by omega⟩

/-- SettledOutputsStayWhileTheInputIsHeld: a settled state. -/
theorem witness_settled : ({ State.reset with settle := .settled } : State).settle = .settled := rfl

/-- SlotsCarryOperandsWithoutLoss: a slot that carries an operand, at the top of its range. -/
theorem witness_slot : argOfSlot ⟨2, 15, true⟩ = some (vRegOptional 15) := by decide

/-- MnemonicCodesAreOneToEighteen: codes outside the range, at its edges. -/
theorem witness_codes : (0 : BitVec 5) = 0 ∧ (18 : BitVec 5) < 19 := by decide

/-- TaggedFormsTellInstructionsApart: equal forms, of one instruction. -/
theorem witness_tagged : Spec.taggedForm (.shr 1 2) State.reset = some (.known .shr [vReg 1, vRegOptional 2]) := by decide

/-- A buffer of equal bytes, an even number of them, is whole words. -/
theorem walkerWords_replicate (b : Byte) (n : Nat) :
    walkerWords (List.replicate (2 * n) b) = some (List.replicate n (wordOfBytes b b)) := by
  induction n with
  | zero => rfl
  | succ n ih =>
    rw [show 2 * (n + 1) = 2 * n + 1 + 1 by omega, List.replicate_succ, List.replicate_succ, walkerWords_cons_cons, ih]
    rfl

/-- WalkerWordsComeFromEvenOffsets and WalkerChecksTheBufferBeforeTheBlock: a buffer of the minimum size, which is even,
and one byte fewer. -/
theorem witness_buffers :
    walkerWords (List.replicate 512 0) = some (List.replicate 256 (wordOfBytes 0 0)) ∧
    512 ≤ (List.replicate 512 (0 : Byte)).length ∧ (List.replicate 512 (0 : Byte)).length % 2 = 0 ∧
    (List.replicate 511 (0 : Byte)).length < 512 := by
  refine ⟨walkerWords_replicate 0 256, ?_, ?_, ?_⟩ <;>
    simp only [List.length_replicate, Nat.reduceLeDiff, Nat.reduceMod, Nat.reduceLT]

/-- WalkerChecksTheBufferBeforeTheBlock: the shortest odd buffer of the minimum size or more. -/
theorem witness_odd_buffer :
    512 ≤ (List.replicate 513 (0 : Byte)).length ∧ (List.replicate 513 (0 : Byte)).length % 2 = 1 := by
  simp only [List.length_replicate, Nat.reduceLeDiff, Nat.reduceMod, and_self]

end Sys2Proof.Tests
end

/-! SUPPORT. The stage loops of the reference function and the stages of the id encoder find the same row
(30_encoding.md R76, R81). -/

namespace Sys2Proof.Machine

/-- A stage that hits names the id of one of its rows. -/
theorem hitId_mem {rows : List MatchRow} {w : Word} (h : stageHit rows w = true) :
    hitId rows w ∈ rows.map MatchRow.id := by
  induction rows with
  | nil => simp [stageHit] at h
  | cons r rest ih =>
    by_cases hr : matchLine r w = true
    · simp [hitId, hr]
    · have hrest : stageHit rest w = true := by simpa [stageHit, hr] using h
      simp [hitId, hr, ih hrest]

/-- Id 0 is Unknown's: no row of a stage has it (10_state.md R26). -/
theorem hitId_ne_zero {rows : List MatchRow} {w : Word} (h0 : 0 ∉ rows.map MatchRow.id)
    (h : stageHit rows w = true) : hitId rows w ≠ 0 :=
  fun hz => h0 (hz ▸ hitId_mem h)

/-- A loop over rows that hold no match changes nothing. -/
theorem scanStage_of_miss {mask : Word} {rows : List MatchRow} {w : Word} (stage : BitVec 2)
    (acc : BitVec 6 × BitVec 2) (h : ∀ r ∈ rows, w &&& mask ≠ r.value) :
    scanStage mask stage rows w acc = acc := by
  induction rows with
  | nil => rfl
  | cons r rest ih =>
    obtain ⟨hr, hrest⟩ := List.forall_mem_cons.mp h
    simpa [scanStage, hr] using ih hrest

/-- The loop of a stage finds what its comparators find. The loop keeps the last match and the encoder the first; the
stage's values are distinct, so there is only one (R69). -/
theorem scanStage_eq {mask : Word} {rows : List MatchRow} (w : Word) (stage : BitVec 2) (acc : BitVec 6 × BitVec 2)
    (hmask : ∀ r ∈ rows, r.mask = mask) (hdistinct : (rows.map MatchRow.value).Nodup) :
    scanStage mask stage rows w acc = if stageHit rows w then (hitId rows w, stage) else acc := by
  induction rows generalizing acc with
  | nil => rfl
  | cons r rest ih =>
    obtain ⟨hm, hmrest⟩ := List.forall_mem_cons.mp hmask
    obtain ⟨hfresh, hdrest⟩ := List.nodup_cons.mp hdistinct
    by_cases hr : w &&& mask = r.value
    · have hmiss : ∀ q ∈ rest, w &&& mask ≠ q.value := fun q hq he =>
        hfresh (List.mem_map.mpr ⟨q, hq, he.symm.trans hr⟩)
      have hscan := scanStage_of_miss stage (r.id, stage) hmiss
      simpa [scanStage, stageHit, hitId, matchLine, hm, hr] using hscan
    · simpa [scanStage, stageHit, hitId, matchLine, hm, hr] using ih acc hmrest hdrest

/-- Once an id is found, the later loops are passed over (R81). -/
theorem scanIfUnmatched_of_matched {mask w : Word} {stage found : BitVec 2} {rows : List MatchRow} {id : BitVec 6}
    (h : id ≠ 0) : scanIfUnmatched mask stage rows w (id, found) = (id, found) :=
  if_neg (by simpa using h)

/-- While no id is found, the next loop finds what its stage's comparators find (R81). -/
theorem scanIfUnmatched_eq {mask : Word} {rows : List MatchRow} (w : Word) (stage : BitVec 2)
    (hmask : ∀ r ∈ rows, r.mask = mask) (hdistinct : (rows.map MatchRow.value).Nodup) :
    scanIfUnmatched mask stage rows w (0, 0) = if stageHit rows w then (hitId rows w, stage) else (0, 0) :=
  scanStage_eq w stage (0, 0) hmask hdistinct

/-- The reference function's loops find the id and the stage of the id encoder (R76, R81). -/
theorem refIdStage_eq (w : Word) : refIdStage w = (encodeId w, encodeStage w) := by
  have scan1 := scanStage_eq (mask := 0xF000) (rows := stage1Rows) w 1 (0, 0) (by decide) (by decide)
  have scan2 := scanIfUnmatched_eq (mask := 0xF00F) (rows := stage2Rows) w 2 (by decide) (by decide)
  have scan3 := scanIfUnmatched_eq (mask := 0xF0FF) (rows := stage3Rows) w 3 (by decide) (by decide)
  unfold refIdStage encodeId encodeStage
  by_cases h1 : stageHit stage1Rows w = true
  · have hid := hitId_ne_zero (by decide) h1
    rw [scan1, if_pos h1, scanIfUnmatched_of_matched hid, scanIfUnmatched_of_matched hid, if_pos h1, if_pos h1]
  rw [scan1, if_neg h1, if_neg h1, if_neg h1, scan2]
  by_cases h2 : stageHit stage2Rows w = true
  · have hid := hitId_ne_zero (by decide) h2
    rw [if_pos h2, scanIfUnmatched_of_matched hid, if_pos h2, if_pos h2]
  rw [if_neg h2, if_neg h2, if_neg h2, scan3]
  by_cases h3 : stageHit stage3Rows w = true
  · rw [if_pos h3, if_pos h3, if_pos h3]
  · rw [if_neg h3, if_neg h3, if_neg h3]

/-- The reference structure drives the reference function of every word (00_scope.md R7). -/
theorem structureOutputs_eq_refDecode (w : Word) : structureOutputs w = refDecode w := by
  rw [structureOutputs, refDecode, refIdStage_eq]

end Sys2Proof.Machine

namespace Sys2Proof

/-- Settles O17: the id encoder and the loops of R81 find the same id and stage, and the ROM and the mux array do the
rest on both sides. -/
theorem structureComputesTheReferenceFunction : Obligations.StructureComputesTheReferenceFunction :=
  Machine.structureOutputs_eq_refDecode

end Sys2Proof

/-! SUPPORT. The dispatch and the meanings against the match array and the ROM: case by case, the row of a case has its
comparator, and its ROM word says what the case's instruction drives. -/

namespace Sys2Proof.Machine

/-- The ROM word of an id, with the mux array, gives a mnemonic and an operand sequence for a word (R77 to R79). -/
structure RomDescribes (id : BitVec 6) (m : Mnemonic) (args : List Arg) (w : Word) : Prop where
  mnem : romMnem (rom id) = mnemonicCode m
  nops : (romNops (rom id)).toNat = args.length
  slot0 : muxSlot (romSlot (rom id) 0) w = slotAt args 0
  slot1 : muxSlot (romSlot (rom id) 1) w = slotAt args 1
  slot2 : muxSlot (romSlot (rom id) 2) w = slotAt args 2

/-- What the ROM describes, the reference structure drives (R79, R80). -/
theorem RomDescribes.romPorts_eq {id : BitVec 6} {m : Mnemonic} {args : List Arg} {w : Word}
    (h : RomDescribes id m args w) (stage : BitVec 2) :
    romPorts id stage w = portsOf stage id (mnemonicCode m) args w := by
  have hnops : romNops (rom id) = BitVec.ofNat 2 args.length := by
    rw [← h.nops, BitVec.ofNat_toNat, BitVec.setWidth_eq]
  rw [romPorts, portsOf, h.mnem, hnops, h.slot0, h.slot1, h.slot2, knownFlag]

/-- A case of the dispatch and a row of the match array say the same: they match the same words, and the instruction the
case reads from the word on `opcode_i` drives what the ROM and the mux array give for the row's id. -/
structure CaseAgrees (stage : Stage) (c : Case) (r : MatchRow) : Prop where
  fits : ∀ w, c.fits w = matchLine r w
  drives : ∀ s : State, exec (c.read s.opcodeI) s = .next (s.drive (romPorts r.id (stageCode stage) s.opcodeI))

/-- Case and row agree when they have one mask and one value, and the ROM word of the row's id describes what the
instruction drives. -/
theorem CaseAgrees.of_rom {stage : Stage} {mask value : Word} {read : Word → Instr} {id : BitVec 6} {m : Mnemonic}
    {args : Word → List Arg} (hexec : ∀ w s, exec (read w) s = .next (driveKnown stage id m (args w) s))
    (hrom : ∀ w, RomDescribes id m (args w) w) : CaseAgrees stage ⟨mask, value, read⟩ ⟨id, mask, value⟩ where
  fits _ := rfl
  drives s := by rw [hexec, driveKnown_eq_drive, (hrom s.opcodeI).romPorts_eq]

/-- The 13 cases of stage 1 agree with rows 1 to 13, in order (R65, R77). -/
theorem stage1_agrees : List.Forall₂ (CaseAgrees .one) stage1Cases stage1Rows := by
  repeat refine .cons (.of_rom (fun _ _ => rfl) fun _ => ⟨rfl, by simp only [List.length]; rfl, rfl, rfl, rfl⟩) ?_
  exact .nil

/-- The 9 cases of stage 2 agree with rows 14 to 22, in order (R66, R77). -/
theorem stage2_agrees : List.Forall₂ (CaseAgrees .two) stage2Cases stage2Rows := by
  repeat refine .cons (.of_rom (fun _ _ => rfl) fun _ => ⟨rfl, by simp only [List.length]; rfl, rfl, rfl, rfl⟩) ?_
  exact .nil

/-- The 11 cases of stage 3 agree with rows 23 to 33, in order (R67, R77). -/
theorem stage3_agrees : List.Forall₂ (CaseAgrees .three) stage3Cases stage3Rows := by
  repeat refine .cons (.of_rom (fun _ _ => rfl) fun _ => ⟨rfl, by simp only [List.length]; rfl, rfl, rfl, rfl⟩) ?_
  exact .nil

section
variable {stage : Stage} {cases : List Case} {rows : List MatchRow}
  (agrees : List.Forall₂ (CaseAgrees stage) cases rows)
include agrees

/-- A stage that reads nothing from a word has no comparator that hits. -/
theorem stageHit_of_readStage_none {w : Word} (h : readStage cases w = none) : stageHit rows w = false := by
  induction agrees with
  | nil => rfl
  | cons hcr _ ih =>
    rw [readStage, hcr.fits] at h
    split at h
    · cases h
    · next hmiss => simpa [stageHit, hmiss] using ih h

/-- A stage that reads an instruction from a word hits, and the instruction drives the ports of the row that hits. -/
theorem stageHit_of_readStage_some {s : State} {i : Instr} (h : readStage cases s.opcodeI = some i) :
    stageHit rows s.opcodeI = true ∧
      exec i s = .next (s.drive (romPorts (hitId rows s.opcodeI) (stageCode stage) s.opcodeI)) := by
  induction agrees with
  | nil => cases h
  | cons hcr _ ih =>
    rw [readStage, hcr.fits] at h
    split at h
    · next hhit =>
      cases h
      simp [stageHit, hitId, hhit, hcr.drives]
    · next hmiss => simpa [stageHit, hitId, hmiss] using ih h

end

/-- An evaluation settles the ports to what the reference structure drives for the word on `opcode_i`. -/
theorem evaluate_eq_structureOutputs (s : State) : evaluate s = .next (s.drive (structureOutputs s.opcodeI)) := by
  unfold evaluate decodeWord structureOutputs encodeId encodeStage
  cases h1 : readStage stage1Cases s.opcodeI with
  | some i =>
    obtain ⟨hit1, hexec⟩ := stageHit_of_readStage_some stage1_agrees h1
    simpa [hit1, stageCode] using hexec
  | none =>
    have miss1 := stageHit_of_readStage_none stage1_agrees h1
    cases h2 : readStage stage2Cases s.opcodeI with
    | some i =>
      obtain ⟨hit2, hexec⟩ := stageHit_of_readStage_some stage2_agrees h2
      simpa [miss1, hit2, stageCode] using hexec
    | none =>
      have miss2 := stageHit_of_readStage_none stage2_agrees h2
      cases h3 : readStage stage3Cases s.opcodeI with
      | some i =>
        obtain ⟨hit3, hexec⟩ := stageHit_of_readStage_some stage3_agrees h3
        simpa [miss1, miss2, hit3, stageCode] using hexec
      | none =>
        have miss3 := stageHit_of_readStage_none stage3_agrees h3
        have hunknown : driveUnknown s = s.drive (romPorts 0 0 s.opcodeI) := rfl
        simp [miss1, miss2, miss3, hunknown]

/-- A step accepts the next word and settles the ports to the reference function of it (R81, R181). -/
theorem step_eq_drive_refDecode (s : State) : step s = .next (s.accept.drive (refDecode s.nextWord)) := by
  rw [step, evaluate_eq_structureOutputs, structureOutputs_eq_refDecode, State.accept_opcodeI]

end Sys2Proof.Machine

namespace Sys2Proof

open Machine

/-- Settles O21: the step answers the state that has accepted the next word, with the reference function of that word
driven on the ports. -/
theorem stepSettlesToTheReferenceFunction : Obligations.StepSettlesToTheReferenceFunction := by
  intro s
  exact ⟨_, step_eq_drive_refDecode s, by simp⟩

end Sys2Proof

/-! SUPPORT. What a step leaves on the ports, read off the reference structure: the raw fields, and the hits of the three
stages (10_state.md R24, R25, R30). -/

namespace Sys2Proof

/-- The source extracts a field by mask and shift; under a mask that keeps the whole field, this is the field
(30_encoding.md R61). -/
theorem setWidth_and_ushiftRight (w : Word) {mask : Word} {start len : Nat}
    (hmask : mask.extractLsb' start len = BitVec.allOnes len) :
    ((w &&& mask) >>> start).setWidth len = w.extractLsb' start len := by
  rw [BitVec.setWidth_ushiftRight_eq_extractLsb, BitVec.extractLsb'_and, hmask, BitVec.and_allOnes]

/-- A field that ends at bit 0 needs no shift (30_encoding.md R61). -/
theorem setWidth_and_mask (w : Word) {mask : Word} {len : Nat}
    (hmask : mask.extractLsb' 0 len = BitVec.allOnes len) : (w &&& mask).setWidth len = w.extractLsb' 0 len := by
  rw [← setWidth_and_ushiftRight w hmask, BitVec.ushiftRight_zero]

namespace Machine

/-- A stage hits when a row of it matches under the stage's mask (30_encoding.md R69). -/
theorem stageHit_iff {mask : Word} {rows : List MatchRow} {w : Word} (hmask : ∀ r ∈ rows, r.mask = mask) :
    stageHit rows w = true ↔ ∃ r ∈ rows, w &&& mask = r.value := by
  simp only [stageHit, List.any_eq_true, matchLine, beq_iff_eq]
  exact exists_congr fun r => and_congr_right fun hr => by rw [hmask r hr]

theorem stage1Hit_iff {w : Word} : stageHit stage1Rows w = true ↔ ∃ r ∈ stage1Rows, w &&& 0xF000 = r.value :=
  stageHit_iff (by decide)

theorem stage2Hit_iff {w : Word} : stageHit stage2Rows w = true ↔ ∃ r ∈ stage2Rows, w &&& 0xF00F = r.value :=
  stageHit_iff (by decide)

theorem stage3Hit_iff {w : Word} : stageHit stage3Rows w = true ↔ ∃ r ∈ stage3Rows, w &&& 0xF0FF = r.value :=
  stageHit_iff (by decide)

/-- A stage misses every word that a stage of a finer mask hits, when the two stages' values differ under the coarser
mask (30_encoding.md R70). -/
theorem stageHit_eq_false_of_finer {coarse fine : Word} {rows fineRows : List MatchRow} {w : Word}
    (hrows : ∀ r ∈ rows, r.mask = coarse) (hfineRows : ∀ q ∈ fineRows, q.mask = fine)
    (hfiner : fine &&& coarse = coarse) (hapart : ∀ r ∈ rows, ∀ q ∈ fineRows, q.value &&& coarse ≠ r.value)
    (hit : stageHit fineRows w = true) : stageHit rows w = false := by
  obtain ⟨q, hq, hqw⟩ := (stageHit_iff hfineRows).mp hit
  refine Bool.eq_false_iff.mpr fun h => ?_
  obtain ⟨r, hr, hrw⟩ := (stageHit_iff hrows).mp h
  exact hapart r hr q hq (by rw [← hqw, BitVec.and_assoc, hfiner, hrw])

/-- Stage 2 hits words of top nibble 8 only, stage 1 none of them (30_encoding.md R70). -/
theorem stage1_misses_of_stage2Hit {w : Word} : stageHit stage2Rows w = true → stageHit stage1Rows w = false :=
  stageHit_eq_false_of_finer (coarse := 0xF000) (fine := 0xF00F) (by decide) (by decide) rfl (by decide)

/-- Stage 3 hits words of top nibbles E and F only, stage 1 none of them (30_encoding.md R70). -/
theorem stage1_misses_of_stage3Hit {w : Word} : stageHit stage3Rows w = true → stageHit stage1Rows w = false :=
  stageHit_eq_false_of_finer (coarse := 0xF000) (fine := 0xF0FF) (by decide) (by decide) rfl (by decide)

/-- Stage 3 hits words of top nibbles E and F only, stage 2 none of them (30_encoding.md R70). -/
theorem stage2_misses_of_stage3Hit {w : Word} : stageHit stage3Rows w = true → stageHit stage2Rows w = false :=
  stageHit_eq_false_of_finer (coarse := 0xF00F) (fine := 0xF0FF) (by decide) (by decide) rfl (by decide)

/-! The id encoder's stage output, read by its value. -/

theorem encodeStage_eq_one_iff (w : Word) : encodeStage w = 1 ↔ stageHit stage1Rows w = true := by
  unfold encodeStage
  split_ifs with h1 <;> simp [h1]

theorem encodeStage_eq_two_iff (w : Word) : encodeStage w = 2 ↔ stageHit stage2Rows w = true := by
  have miss1 := @stage1_misses_of_stage2Hit w
  unfold encodeStage
  split_ifs with h1 h2
  · simpa [h1] using miss1
  · simp [h2]
  · simp [h2]
  · simp [h2]

theorem encodeStage_eq_three_iff (w : Word) : encodeStage w = 3 ↔ stageHit stage3Rows w = true := by
  have miss1 := @stage1_misses_of_stage3Hit w
  have miss2 := @stage2_misses_of_stage3Hit w
  unfold encodeStage
  split_ifs with h1 h2 h3
  · simpa [h1] using miss1
  · simpa [h2] using miss2
  · simp [h3]
  · simp [h3]

/-- The id encoder finds an id exactly when some stage hits (30_encoding.md R76). -/
theorem encodeId_ne_zero_iff (w : Word) :
    encodeId w ≠ 0 ↔ stageHit stage1Rows w = true ∨ stageHit stage2Rows w = true ∨ stageHit stage3Rows w = true := by
  unfold encodeId
  split_ifs with h1 h2 h3
  · simpa [h1] using hitId_ne_zero (by decide) h1
  · simpa [h2] using hitId_ne_zero (by decide) h2
  · simpa [h3] using hitId_ne_zero (by decide) h3
  · simp [h1, h2, h3]

/-- The stage output is 0 exactly when the id is (30_encoding.md R76). -/
theorem encodeStage_eq_zero_iff (w : Word) : encodeStage w = 0 ↔ encodeId w = 0 := by
  rw [← not_iff_not, ← ne_eq (encodeId w), encodeId_ne_zero_iff]
  unfold encodeStage
  split_ifs with h1 h2 h3 <;> simp [*]

/-! The reference function's status ports. -/

theorem refDecode_known (w : Word) : (refDecode w).known = (encodeId w != 0) := by
  rw [← structureOutputs_eq_refDecode]
  rfl

theorem refDecode_stage (w : Word) : (refDecode w).stage = encodeStage w := by
  rw [← structureOutputs_eq_refDecode]
  rfl

/-- A run over a feed that is not used up takes one step and runs on from there. -/
theorem run_succ (k : Nat) (s : State) :
    Host.Core.run core (k + 1) s = Host.Core.run core k (s.accept.drive (refDecode s.nextWord)) := by
  have hstep : core.step s = .next (s.accept.drive (refDecode s.nextWord)) := step_eq_drive_refDecode s
  simp only [Host.Core.run, hstep]

end Machine

open Machine

/-- Settles O24: the raw fields are those of R61, and the source's masks each keep one whole field. -/
theorem rawFieldsAreDrivenForEveryWord : Obligations.RawFieldsAreDrivenForEveryWord := by
  intro s
  have shifted {mask : Word} {start len : Nat} := @setWidth_and_ushiftRight s.nextWord mask start len
  have unshifted {mask : Word} {len : Nat} := @setWidth_and_mask s.nextWord mask len
  exact ⟨_, step_eq_drive_refDecode s, (shifted rfl).symm, (shifted rfl).symm, (shifted rfl).symm,
    (unshifted rfl).symm, (unshifted rfl).symm, (unshifted rfl).symm⟩

/-- Settles O25: the id is not 0 exactly when some stage hits. -/
theorem knownFlagTellsWhetherACaseMatched : Obligations.KnownFlagTellsWhetherACaseMatched := by
  intro s
  refine ⟨_, step_eq_drive_refDecode s, ?_⟩
  rw [State.drive_out, refDecode_known, bne_iff_ne, encodeId_ne_zero_iff, stage1Hit_iff, stage2Hit_iff, stage3Hit_iff]

/-- Settles O26: the id encoder tries the stages in order, and no two stages hit the same word. -/
theorem stageOutputNamesTheMatchingStage : Obligations.StageOutputNamesTheMatchingStage := by
  intro s
  refine ⟨_, step_eq_drive_refDecode s, ?_⟩
  rw [State.drive_out, refDecode_known, refDecode_stage, bne_eq_false_iff_eq, encodeStage_eq_one_iff,
    encodeStage_eq_two_iff, encodeStage_eq_three_iff]
  exact ⟨stage1Hit_iff, stage2Hit_iff, stage3Hit_iff, encodeStage_eq_zero_iff s.nextWord⟩

/-- Settles O28: both steps drive the reference function of the same word. -/
theorem outputsDependOnThePresentedWordAlone : Obligations.OutputsDependOnThePresentedWordAlone := by
  intro s₁ s₂ t₁ t₂ hword hstep₁ hstep₂
  rw [step_eq_drive_refDecode] at hstep₁ hstep₂
  cases hstep₁
  cases hstep₂
  rw [State.drive_out, State.drive_out, hword]

/-- Settles O30, by induction on the words before the given one: a step takes one of them off the feed. -/
theorem feedRunGivesEachWordItsOwnRecord : Obligations.FeedRunGivesEachWordItsOwnRecord := by
  intro before after w s hfeed
  induction before generalizing s with
  | nil =>
    have hword := State.nextWord_of_cons hfeed
    exact ⟨_, run_succ 0 s, by simp [hword], by simp [hword], by simp [hfeed]⟩
  | cons v rest ih =>
    rw [List.length_cons, run_succ]
    exact ih _ (by simp [hfeed])

end Sys2Proof

/-! SUPPORT. The codes and the slots, read back (10_state.md R27, R29, R32, R33, R36, R37). -/

namespace Sys2Proof.Machine

/-! Mnemonic codes. -/

@[simp] theorem mnemonicOfCode_mnemonicCode (m : Mnemonic) : mnemonicOfCode (mnemonicCode m) = some m := by
  cases m <;> rfl

theorem mnemonicCode_le (m : Mnemonic) : mnemonicCode m ≤ 18 := by
  cases m <;> decide

theorem mnemonicCode_ne_zero (m : Mnemonic) : mnemonicCode m ≠ 0 := by
  cases m <;> decide

/-- Code 0 and the codes above 18 name no mnemonic (R27). -/
theorem mnemonicOfCode_eq_none {c : BitVec 5} (hc : c = 0 ∨ 18 < c) : mnemonicOfCode c = none := by
  refine List.find?_eq_none.mpr fun m _ hm => ?_
  have hcode : mnemonicCode m = c := beq_iff_eq.mp hm
  rcases hc with rfl | habove
  · exact mnemonicCode_ne_zero m hcode
  · exact BitVec.not_lt.mpr (hcode ▸ mnemonicCode_le m) habove

/-! Alias and literal codes. -/

@[simp] theorem regAliasOfCode_regAliasCode (a : RegAlias) : regAliasOfCode (regAliasCode a) = some a := by
  cases a <;> rfl

theorem regAliasCode_of_regAliasOfCode {c : BitVec 12} {a : RegAlias} (h : regAliasOfCode c = some a) :
    regAliasCode a = c := by
  simpa using List.find?_some h

@[simp] theorem literalOfCode_literalCode (l : Literal) : literalOfCode (literalCode l) = some l := by
  cases l <;> rfl

theorem literalCode_of_literalOfCode {c : BitVec 12} {l : Literal} (h : literalOfCode c = some l) :
    literalCode l = c := by
  simpa using List.find?_some h

/-! A zero-extended operand is below the bound of its width, and truncating it gives it back (10_state.md R36). -/

theorem nibble_setWidth_lt (r : Nibble) : r.setWidth 12 < 16#12 := by bv_omega

theorem byte_setWidth_lt (b : Byte) : b.setWidth 12 < 256#12 := by bv_omega

theorem setWidth_nibble_setWidth {v : BitVec 12} (h : v < 16) : (v.setWidth 4).setWidth 12 = v := by bv_omega

theorem setWidth_byte_setWidth {v : BitVec 12} (h : v < 256) : (v.setWidth 8).setWidth 12 = v := by bv_omega

/-! Operands in slots. -/

/-- The slot of an operand reads as the operand. -/
theorem operandOfSlot_operand (o : Operand) (opt : Bool) :
    operandOfSlot ⟨operandKind o, operandValue o, opt⟩ = some o := by
  cases o with
  | address a => rfl
  | register r => simp [operandOfSlot, operandKind, operandValue, nibble_setWidth_lt]
  | regAlias a => simp [operandOfSlot, operandKind, operandValue]
  | byte b => simp [operandOfSlot, operandKind, operandValue, byte_setWidth_lt]
  | nibble n => simp [operandOfSlot, operandKind, operandValue, nibble_setWidth_lt]
  | literal l => simp [operandOfSlot, operandKind, operandValue]

/-- A slot that reads as an operand has the operand's kind and value. -/
theorem slot_of_operandOfSlot {s : Slot} {o : Operand} (h : operandOfSlot s = some o) :
    operandKind o = s.kind ∧ operandValue o = s.val := by
  unfold operandOfSlot at h
  split_ifs at h with haddress hregister halias hbyte hnibble hliteral
  · cases h
    exact ⟨(beq_iff_eq.mp haddress).symm, rfl⟩
  · cases h
    obtain ⟨hkind, hval⟩ : s.kind = 2 ∧ s.val < 16 := by simpa using hregister
    exact ⟨hkind.symm, setWidth_nibble_setWidth hval⟩
  · obtain ⟨a, ha, rfl⟩ := Option.map_eq_some_iff.mp h
    exact ⟨(beq_iff_eq.mp halias).symm, regAliasCode_of_regAliasOfCode ha⟩
  · cases h
    obtain ⟨hkind, hval⟩ : s.kind = 4 ∧ s.val < 256 := by simpa using hbyte
    exact ⟨hkind.symm, setWidth_byte_setWidth hval⟩
  · cases h
    obtain ⟨hkind, hval⟩ : s.kind = 5 ∧ s.val < 16 := by simpa using hnibble
    exact ⟨hkind.symm, setWidth_nibble_setWidth hval⟩
  · obtain ⟨l, hl, rfl⟩ := Option.map_eq_some_iff.mp h
    exact ⟨(beq_iff_eq.mp hliteral).symm, literalCode_of_literalOfCode hl⟩

@[simp] theorem argOfSlot_slotOfArg (a : Arg) : argOfSlot (slotOfArg a) = some a := by
  simp [argOfSlot, slotOfArg, operandOfSlot_operand]

theorem slotOfArg_of_argOfSlot {s : Slot} {a : Arg} (h : argOfSlot s = some a) : slotOfArg a = s := by
  obtain ⟨o, ho, rfl⟩ := Option.map_eq_some_iff.mp h
  obtain ⟨hkind, hval⟩ := slot_of_operandOfSlot ho
  rw [slotOfArg, hkind, hval]

/-- The slots of an operand sequence read back as the sequence. -/
theorem argsOfSlots_map_slotOfArg (args : List Arg) : argsOfSlots (args.map slotOfArg) = some args := by
  induction args with
  | nil => rfl
  | cons a rest ih => simp [argsOfSlots, ih]

end Sys2Proof.Machine

namespace Sys2Proof

open Machine

/-- Settles O36, by the kinds of operands one way and by the kind codes the other way. -/
theorem slotsCarryOperandsWithoutLoss : Obligations.SlotsCarryOperandsWithoutLoss :=
  ⟨argOfSlot_slotOfArg, fun _ _ => slotOfArg_of_argOfSlot⟩

end Sys2Proof

/-! SUPPORT. The 33 meanings as rows of codes and operands, and what every row keeps: the record of a row is well formed
and reads back as the row's mnemonic and operands (10_state.md R23 to R29, R36). -/

namespace Sys2Proof.Machine

/-- The instruction a mnemonic and its operands stand for (R100 to R112, R120 to R128, R140 to R150). -/
def instrOfForm : Mnemonic → List Operand → Option Instr
  | .sys, [.address a] => some (.sys a)
  | .jp, [.address a] => some (.jp a)
  | .jp, [.regAlias .v0, .address a] => some (.jpV0 a)
  | .call, [.address a] => some (.call a)
  | .se, [.register x, .byte kk] => some (.seByte x kk)
  | .se, [.register x, .register y] => some (.seReg x y)
  | .sne, [.register x, .byte kk] => some (.sneByte x kk)
  | .sne, [.register x, .register y] => some (.sneReg x y)
  | .ld, [.register x, .byte kk] => some (.ldByte x kk)
  | .ld, [.regAlias .i, .address a] => some (.ldI a)
  | .ld, [.register x, .register y] => some (.ldReg x y)
  | .ld, [.register x, .literal .dt] => some (.ldVxDt x)
  | .ld, [.register x, .literal .k] => some (.ldVxK x)
  | .ld, [.register x, .literal .memI] => some (.ldVxMem x)
  | .ld, [.literal .dt, .register x] => some (.ldDtVx x)
  | .ld, [.literal .st, .register x] => some (.ldStVx x)
  | .ld, [.literal .f, .register x] => some (.ldF x)
  | .ld, [.literal .b, .register x] => some (.ldB x)
  | .ld, [.literal .memI, .register x] => some (.ldMemVx x)
  | .add, [.register x, .byte kk] => some (.addByte x kk)
  | .add, [.register x, .register y] => some (.addReg x y)
  | .add, [.regAlias .i, .register x] => some (.addI x)
  | .rnd, [.register x, .byte kk] => some (.rnd x kk)
  | .drw, [.register x, .register y, .nibble n] => some (.drw x y n)
  | .or, [.register x, .register y] => some (.orReg x y)
  | .and, [.register x, .register y] => some (.andReg x y)
  | .xor, [.register x, .register y] => some (.xorReg x y)
  | .sub, [.register x, .register y] => some (.subReg x y)
  | .shr, [.register x, .register y] => some (.shr x y)
  | .subn, [.register x, .register y] => some (.subn x y)
  | .shl, [.register x, .register y] => some (.shl x y)
  | .skp, [.register x] => some (.skp x)
  | .sknp, [.register x] => some (.sknp x)
  | _, _ => none

/-- What the spec asks of the stage, id, mnemonic and operands that an instruction drives. -/
structure InstrRow (i : Instr) (st : Stage) (id : BitVec 6) (m : Mnemonic) (args : List Arg) : Prop where
  /-- the ids are 1 to 33 (R26) -/
  id_ne_zero : id ≠ 0
  id_le : id ≤ 33
  /-- ids 1 to 13 are stage 1's, 14 to 22 stage 2's (R25, R26) -/
  stage : stageCode st = if id ≤ 13 then 1 else if id ≤ 22 then 2 else 3
  /-- one to three operands (R28) -/
  args_ne_nil : args ≠ []
  args_length : args.length ≤ 3
  /-- the form is one of the 33 (R36, R84), and stands for the instruction -/
  listed : Decoded.wf (.known m args) = true
  form : instrOfForm m (args.map Arg.operand) = some i
  /-- SHR and SHL, the mnemonics with an optional operand, have the ids 20 and 22 (R29) -/
  shift : (m == .shr || m == .shl) = (id == 20 || id == 22)

/-- Every instruction's meaning drives the ports for a row that the spec allows, and does nothing else. -/
theorem exec_drives_row (i : Instr) (s : State) :
    ∃ st id m args, InstrRow i st id m args ∧ exec i s = .next (driveKnown st id m args s) := by
  cases i <;> exact ⟨_, _, _, _,
    { id_ne_zero := by decide, id_le := by decide, stage := by decide, args_ne_nil := List.cons_ne_nil _ _,
      args_length := by simp only [List.length]; decide, listed := rfl, form := rfl, shift := rfl }, rfl⟩

/-! Slots of an operand sequence. -/

theorem operandKind_ne_zero (o : Operand) : operandKind o ≠ 0 := by
  cases o <;> simp [operandKind]

/-- A slot that carries an operand has a listed kind, and a value in the range of its kind (R36, R37). -/
theorem slotOfArg_wf (a : Arg) : (slotOfArg a).wf = true := by
  obtain ⟨o, opt⟩ := a
  simp only [Slot.wf, Slot.emptyOk, Slot.kindOk, Slot.valueOk, slotOfArg]
  cases o with
  | address a => rfl
  | register r => simp [operandKind, operandValue, nibble_setWidth_lt]
  | regAlias a => cases a <;> rfl
  | byte b => simp [operandKind, operandValue, byte_setWidth_lt]
  | nibble n => simp [operandKind, operandValue, nibble_setWidth_lt]
  | literal l => cases l <;> rfl

theorem slotAt_of_lt {args : List Arg} {k : Nat} (h : k < args.length) : slotAt args k = slotOfArg args[k] := by
  simp [slotAt, h]

theorem slotAt_of_le {args : List Arg} {k : Nat} (h : args.length ≤ k) : slotAt args k = Slot.none := by
  simp [slotAt, h]

theorem slotAt_wf (args : List Arg) (k : Nat) : (slotAt args k).wf = true := by
  unfold slotAt
  split
  · exact slotOfArg_wf _
  · rfl

/-- Exactly the slots below the number of operands carry one (R28, R29). -/
theorem slotAt_kind_ne_zero_iff (args : List Arg) (k : Nat) : (slotAt args k).kind ≠ 0 ↔ k < args.length := by
  rcases Nat.lt_or_ge k args.length with h | h
  · simpa [slotAt_of_lt h, slotOfArg, h] using operandKind_ne_zero _
  · simp [slotAt_of_le h, Slot.none, h]

/-- A slot's optional bit is its operand's, and clear past the end (R29). -/
theorem slotAt_opt (args : List Arg) (k : Nat) :
    (slotAt args k).opt = ((args.map Arg.optional)[k]?).getD false := by
  rcases Nat.lt_or_ge k args.length with h | h
  · simp [slotAt_of_lt h, slotOfArg, h]
  · simp [slotAt_of_le h, Slot.none, h]

/-- The first slots are those of the operands. -/
theorem take_slotAt {args : List Arg} (h : args.length ≤ 3) :
    [slotAt args 0, slotAt args 1, slotAt args 2].take args.length = args.map slotOfArg := by
  match args, h with
  | [], _ => rfl
  | [_], _ => rfl
  | [_, _], _ => rfl
  | [_, _, _], _ => rfl

/-! The record of a row. -/

/-- The address field is `x` and the byte field (30_encoding.md R62). -/
theorem fieldAddr_eq (w : Word) : w.fieldAddr = w.fieldX ++ w.fieldKk := by
  apply BitVec.eq_of_toNat_eq
  have h := append_toNat w.fieldX w.fieldKk
  rw [fieldAddr_toNat]
  rw [fieldX_toNat, fieldKk_toNat] at h
  omega

theorem portsOf_fieldsOk (stage : BitVec 2) (id : BitVec 6) (mnem : BitVec 5) (args : List Arg) (w : Word) :
    (portsOf stage id mnem args w).fieldsOk = true := by
  simp [Outputs.fieldsOk, portsOf, ← fieldKk_eq, fieldAddr_eq]

/-- The record of an Unknown word is well formed (30_encoding.md R80). -/
theorem portsOf_unknown_wf (w : Word) : (portsOf 0 0 0 [] w).wf = true := by
  rw [Outputs.wf, portsOf_fieldsOk]
  rfl

namespace InstrRow

variable {i : Instr} {st : Stage} {id : BitVec 6} {m : Mnemonic} {args : List Arg} (row : InstrRow i st id m args)
include row

theorem nops_toNat : (BitVec.ofNat 2 args.length).toNat = args.length := by
  have := row.args_length
  rw [BitVec.toNat_ofNat]
  omega

theorem knownFlag_eq : knownFlag id = true := bne_iff_ne.mpr row.id_ne_zero

theorem knownOk (w : Word) : (portsOf (stageCode st) id (mnemonicCode m) args w).knownOk = true := by
  have hstage : stageCode st ≠ 0 := by cases st <;> decide
  simpa [Outputs.knownOk, portsOf, row.knownFlag_eq] using
    (⟨⟨row.id_ne_zero, hstage⟩, mnemonicCode_ne_zero m⟩ : (id ≠ 0 ∧ stageCode st ≠ 0) ∧ mnemonicCode m ≠ 0)

theorem stageOk (w : Word) : (portsOf (stageCode st) id (mnemonicCode m) args w).stageOk = true := by
  simpa [Outputs.stageOk, portsOf, row.stage] using fun hid : id = 0 => absurd hid row.id_ne_zero

theorem nopsOk (w : Word) : (portsOf (stageCode st) id (mnemonicCode m) args w).nopsOk = true := by
  have hbelow (k : BitVec 2) : ((slotAt args k.toNat).kind != 0) = decide (k < BitVec.ofNat 2 args.length) := by
    rw [Bool.eq_iff_iff, bne_iff_ne, slotAt_kind_ne_zero_iff, decide_eq_true_iff, BitVec.lt_def, row.nops_toNat]
  have hbelow0 : ((slotAt args 0).kind != 0) = decide (0 < BitVec.ofNat 2 args.length) := hbelow 0
  have hbelow1 : ((slotAt args 1).kind != 0) = decide (1 < BitVec.ofNat 2 args.length) := hbelow 1
  have hbelow2 : ((slotAt args 2).kind != 0) = decide (2 < BitVec.ofNat 2 args.length) := hbelow 2
  have hsome : (BitVec.ofNat 2 args.length != 0) = true := by
    rw [bne_iff_ne, ne_eq, ← BitVec.toNat_inj, row.nops_toNat]
    exact mt List.length_eq_zero_iff.mp row.args_ne_nil
  simp only [Outputs.nopsOk, portsOf, hbelow0, hbelow1, hbelow2, hsome, row.knownFlag_eq, beq_self_eq_true,
    Bool.and_self]

/-- The optional bit is set on slot 1 of SHR and SHL and nowhere else (R29). -/
theorem slotAt_opt_eq (k : Nat) : (slotAt args k).opt = ((id == 20 || id == 22) && k == 1) := by
  obtain ⟨-, hoptional⟩ := Bool.and_eq_true_iff.mp row.listed
  rw [slotAt_opt, beq_iff_eq.mp hoptional, ← row.shift]
  cases m == .shr || m == .shl with
  | true =>
    match k with
    | 0 => rfl
    | 1 => rfl
    | k + 2 => simp
  | false => simp

theorem optOk (w : Word) : (portsOf (stageCode st) id (mnemonicCode m) args w).optOk = true := by
  simp [Outputs.optOk, portsOf, row.slotAt_opt_eq]

theorem portsOf_wf (w : Word) : (portsOf (stageCode st) id (mnemonicCode m) args w).wf = true := by
  have hid : (portsOf (stageCode st) id (mnemonicCode m) args w).idOk = true := decide_eq_true row.id_le
  have hmnem : (portsOf (stageCode st) id (mnemonicCode m) args w).mnemOk = true := decide_eq_true (mnemonicCode_le m)
  rw [Outputs.wf, hid, hmnem, row.knownOk, row.stageOk, row.nopsOk, row.optOk, portsOf_fieldsOk]
  simp [portsOf, slotAt_wf]

/-- The record reads back as the row's mnemonic and operands (R36). -/
theorem decodedOfOutputs_portsOf (w : Word) :
    decodedOfOutputs (portsOf (stageCode st) id (mnemonicCode m) args w) = some (.known m args) := by
  simp [decodedOfOutputs, portsOf, row.knownFlag_eq, row.nops_toNat, take_slotAt row.args_length,
    argsOfSlots_map_slotOfArg, -BitVec.toNat_ofNat]

end InstrRow

/-! Steps and tagged forms. -/

/-- A step drives the row of an instruction, or the record of Unknown, in the state that has accepted the next word. -/
theorem step_cases (s : State) :
    (∃ i st id m args, InstrRow i st id m args ∧ step s = .next (driveKnown st id m args s.accept)) ∨
      step s = .next (driveUnknown s.accept) := by
  cases hread : decodeWord s.accept.opcodeI with
  | known i =>
    obtain ⟨st, id, m, args, row, hexec⟩ := exec_drives_row i s.accept
    exact .inl ⟨i, st, id, m, args, row, (evaluate_of_known hread).trans hexec⟩
  | unknown u => exact .inr (evaluate_of_unknown hread)

/-- Every step leaves a well-formed record on the ports. -/
theorem step_out_wf (s : State) : ∃ t, step s = .next t ∧ t.out.wf = true := by
  rcases step_cases s with ⟨i, st, id, m, args, row, hstep⟩ | hstep
  · exact ⟨_, hstep, row.portsOf_wf _⟩
  · exact ⟨_, hstep, portsOf_unknown_wf _⟩

/-- A well-formed record has a mnemonic code of at most 18, 0 exactly when the known flag is clear (R27). -/
theorem mnem_of_wf {o : Outputs} (h : o.wf = true) : o.mnem ≤ 18 ∧ (o.mnem = 0 ↔ o.known = false) := by
  simp only [Outputs.wf, Bool.and_eq_true] at h
  obtain ⟨⟨⟨⟨⟨⟨⟨⟨⟨-, hmnem⟩, hknown⟩, -⟩, -⟩, -⟩, -⟩, -⟩, -⟩, -⟩ := h
  simp only [Outputs.knownOk, Bool.and_eq_true, beq_iff_eq] at hknown
  obtain ⟨-, hknown⟩ := hknown
  exact ⟨of_decide_eq_true hmnem, by rw [hknown, bne_eq_false_iff_eq]⟩

/-- An instruction's ports read back as its row's mnemonic and operands, which stand for the instruction. -/
theorem taggedForm_eq (i : Instr) (s : State) :
    ∃ m args, Spec.taggedForm i s = some (.known m args) ∧ instrOfForm m (args.map Arg.operand) = some i := by
  obtain ⟨st, id, m, args, row, hexec⟩ := exec_drives_row i s
  refine ⟨m, args, ?_, row.form⟩
  rw [Spec.taggedForm, hexec]
  exact row.decodedOfOutputs_portsOf s.opcodeI

end Sys2Proof.Machine

namespace Sys2Proof

open Machine

/-- Settles O23: every meaning drives a row's record, and driving leaves the input, the feed and the counter. -/
theorem instructionsChangeOnlyTheOutputs : Obligations.InstructionsChangeOnlyTheOutputs := by
  intro i s t hexec
  obtain ⟨st, id, m, args, row, hdrives⟩ := exec_drives_row i s
  cases hexec.symm.trans hdrives
  exact ⟨rfl, rfl, rfl, rfl, row.knownFlag_eq, rfl, rfl, rfl, rfl, rfl, rfl⟩

/-- Settles O27: the record of a row is well formed and reads back as the row's form, and so is Unknown's. -/
theorem settledRecordsAreWellFormed : Obligations.SettledRecordsAreWellFormed := by
  intro s
  rcases step_cases s with ⟨i, st, id, m, args, row, hstep⟩ | hstep
  · refine ⟨_, hstep, row.portsOf_wf _, .known m args, row.decodedOfOutputs_portsOf _, row.listed, ?_⟩
    have hknown : (driveKnown st id m args s.accept).out.known = true := row.knownFlag_eq
    simp [hknown]
  · exact ⟨_, hstep, portsOf_unknown_wf _, .unknown, rfl, rfl, fun _ => rfl, fun _ => rfl⟩

/-- Settles O37: the codes lie between 1 and 18, so the search for 0 or for a code above 18 finds no mnemonic; the output
code's range is part of a record's well-formedness. -/
theorem mnemonicCodesAreOneToEighteen : Obligations.MnemonicCodesAreOneToEighteen := by
  refine ⟨rfl, mnemonicOfCode_mnemonicCode, fun c hc => mnemonicOfCode_eq_none hc, fun s => ?_⟩
  obtain ⟨t, hstep, hwf⟩ := step_out_wf s
  exact ⟨t, hstep, mnem_of_wf hwf⟩

/-- Settles O38: the mnemonic and the operands of a tagged form stand for one instruction. -/
theorem taggedFormsTellInstructionsApart : Obligations.TaggedFormsTellInstructionsApart := by
  intro i j s hsame
  obtain ⟨m, args, htagged, hform⟩ := taggedForm_eq i s
  obtain ⟨m', args', htagged', hform'⟩ := taggedForm_eq j s
  cases htagged.symm.trans (hsame.trans htagged')
  exact Option.some_inj.mp (hform.symm.trans hform')

end Sys2Proof

/-! SUPPORT. The words of a buffer and the bytes of a word (20_memory.md R41, R43), and a second step on a held word
(20_memory.md R44). -/

namespace Sys2Proof

/-- The first byte of a word is its high byte (R41). -/
@[simp] theorem wordOfBytes_high (hi lo : Byte) : (wordOfBytes hi lo).extractLsb' 8 8 = hi :=
  BitVec.extractLsb'_append_eq_left

/-- The second byte of a word is its low byte (R41). -/
@[simp] theorem wordOfBytes_low (hi lo : Byte) : (wordOfBytes hi lo).extractLsb' 0 8 = lo :=
  BitVec.extractLsb'_append_eq_right

@[simp] theorem bytesOfWord_wordOfBytes (hi lo : Byte) : bytesOfWord (wordOfBytes hi lo) = [hi, lo] := by
  rw [bytesOfWord, wordOfBytes_high, wordOfBytes_low]

namespace Machine

/-! The walker. -/

/-- A buffer that starts with a pair of bytes has words exactly when the rest has, and the pair's word comes first. -/
theorem walkerWords_cons_cons_eq_some {hi lo : Byte} {rest : List Byte} {words : List Word} :
    walkerWords (hi :: lo :: rest) = some words ↔
      ∃ later, walkerWords rest = some later ∧ wordOfBytes hi lo :: later = words := by
  rw [walkerWords_cons_cons, Option.map_eq_some_iff]

/-- A buffer that has words has two bytes a word. -/
theorem length_of_walkerWords {buffer : List Byte} {words : List Word} (h : walkerWords buffer = some words) :
    buffer.length = 2 * words.length := by
  induction buffer using walkerWords.induct generalizing words with
  | case1 => cases h; rfl
  | case2 => cases h
  | case3 hi lo rest ih =>
    obtain ⟨later, hrest, rfl⟩ := walkerWords_cons_cons_eq_some.mp h
    simp only [List.length_cons, ih hrest, Nat.mul_succ]

/-- Word `k` of a buffer is made of the bytes at `2 * k` and `2 * k + 1`. -/
theorem getElem?_of_walkerWords {buffer : List Byte} {words : List Word} (h : walkerWords buffer = some words)
    {k : Nat} (hk : k < words.length) :
    ∃ b0 b1, buffer[2 * k]? = some b0 ∧ buffer[2 * k + 1]? = some b1 ∧ words[k]? = some (wordOfBytes b0 b1) := by
  induction buffer using walkerWords.induct generalizing words k with
  | case1 => cases h; cases hk
  | case2 => cases h
  | case3 hi lo rest ih =>
    obtain ⟨later, hrest, rfl⟩ := walkerWords_cons_cons_eq_some.mp h
    cases k with
    | zero => exact ⟨hi, lo, rfl, rfl, rfl⟩
    | succ j => exact ih hrest (Nat.lt_of_succ_lt_succ hk)

/-- A buffer of even length has words. -/
theorem walkerWords_of_even {buffer : List Byte} (h : buffer.length % 2 = 0) :
    ∃ words, walkerWords buffer = some words := by
  induction buffer using walkerWords.induct with
  | case1 => exact ⟨[], rfl⟩
  | case2 => cases h
  | case3 hi lo rest ih =>
    have heven : rest.length % 2 = 0 := by
      simp only [List.length_cons] at h
      omega
    obtain ⟨later, hrest⟩ := ih heven
    exact ⟨_, walkerWords_cons_cons_eq_some.mpr ⟨later, hrest, rfl⟩⟩

/-! A second step. -/

/-- Driving the ports twice leaves the second record. -/
@[simp] theorem State.drive_drive (o p : Outputs) (s : State) : (s.drive o).drive p = s.drive p := rfl

end Machine

open Machine

/-- Settles O9: the two halves of an appended word are its two bytes. -/
theorem wordsAreAssembledHighByteFirst : Obligations.WordsAreAssembledHighByteFirst := by
  intro b0 b1 rest
  exact ⟨wordOfBytes_high b0 b1, wordOfBytes_low b0 b1, bytesOfWord_wordOfBytes b0 b1, decodeBytes_word b0 b1 rest⟩

/-- Settles O42, by the walker's recursion: it takes two bytes and makes one word. -/
theorem walkerWordsComeFromEvenOffsets : Obligations.WalkerWordsComeFromEvenOffsets :=
  ⟨fun _ _ h => ⟨length_of_walkerWords h, fun _ => getElem?_of_walkerWords h⟩, fun _ => walkerWords_of_even⟩

/-- Settles O29: with nothing left to present, the second step evaluates the word the first one left on `opcode_i`, and
drives the same record again. -/
theorem decodingAgainChangesNothing : Obligations.DecodingAgainChangesNothing := by
  intro s t hlast hstep
  rw [step_eq_drive_refDecode] at hstep
  cases hstep
  have hempty : (s.accept.drive (refDecode s.nextWord)).pending = [] := by simpa using hlast
  rw [step_eq_drive_refDecode, State.accept_of_empty hempty, State.nextWord_of_empty hempty, State.drive_drive,
    State.drive_opcodeI, State.accept_opcodeI]

end Sys2Proof

/-! SUPPORT. No word fits two cases or sets two comparators, and the case of an instruction fits its word
(30_encoding.md R63, R69, R70, R75). -/

namespace Sys2Proof

/-- Two masked comparisons that hold of one word agree on the bits both masks keep. -/
theorem value_and_mask_of_two_matches {w mask value mask' value' : Word} (h : w &&& mask = value)
    (h' : w &&& mask' = value') : value &&& mask' = value' &&& mask := by
  rw [← h, ← h', BitVec.and_assoc, BitVec.and_assoc, BitVec.and_comm mask]

/-- A case fits when the masked word is its value. -/
theorem Case.fits_iff {c : Case} {w : Word} : c.fits w = true ↔ w &&& c.mask = c.value := beq_iff_eq

/-- Any two of the 33 cases differ on the bits both their masks keep (R70). -/
theorem allCases_apart : allCases.Pairwise fun c d => c.value &&& d.mask ≠ d.value &&& c.mask := by
  unfold allCases stage1Cases stage2Cases stage3Cases
  decide

/-- At most one of the 33 cases fits a word (R70). -/
theorem eq_of_fits {w : Word} : ∀ c ∈ allCases, ∀ d ∈ allCases, c.fits w = true → d.fits w = true → c = d := by
  have hsymm : Std.Symm fun c d : Case => c.fits w = true → d.fits w = true → c = d :=
    ⟨fun c d h hd hc => (h hc hd).symm⟩
  refine List.Pairwise.forall_of_forall (fun c _ _ _ => rfl) (allCases_apart.imp fun hapart hc hd => absurd ?_ hapart)
  exact value_and_mask_of_two_matches (Case.fits_iff.mp hc) (Case.fits_iff.mp hd)

/-- Cases among the 33, in any order, read a word by the one that fits it (R68, R70). -/
theorem readStage_eq_of_fits {cs : List Case} {c : Case} {w : Word} (hsub : cs ⊆ allCases) (hc : c ∈ cs)
    (hfits : c.fits w = true) : readStage cs w = some (c.read w) := by
  cases hread : readStage cs w with
  | none => simp [readStage_none_iff.mp hread c hc] at hfits
  | some i =>
    obtain ⟨d, hd, hdfits, rfl⟩ := readStage_some hread
    rw [eq_of_fits d (hsub hd) c (hsub hc) hdfits hfits]

/-- The dispatch reads a word by the case that fits it. -/
theorem decodeWord_of_fits {c : Case} {w : Word} (hc : c ∈ allCases) (hfits : c.fits w = true) :
    decodeWord w = .known (c.read w) := by
  rw [decodeWord_eq, readStage_eq_of_fits (List.Subset.refl _) hc hfits]

/-- The cases stand in the order of the instructions: the word of an instruction fits the case at the instruction's
place, which reads the instruction back. -/
theorem case_of_encode (i : Instr) :
    ∃ c, allCases[i.ctorIdx]? = some c ∧ c.fits (encode i) = true ∧ c.read (encode i) = i := by
  cases i <;> refine ⟨_, rfl, Case.fits_iff.mpr ((and_eq_iff_fields _ _ _).mpr ?_), by simp [encode]⟩ <;>
    simp only [encode, packNnn_eq, packXkk_eq, packXyn_fieldTop, packXyn_fieldX, packXyn_fieldY, packXyn_fieldN] <;>
    simp [Word.fieldTop, Word.fieldX, Word.fieldY, Word.fieldN]

/-- Decoding the word of an instruction gives the instruction (R63, R65 to R67). -/
theorem decodeWord_encode (i : Instr) : decodeWord (encode i) = .known i := by
  obtain ⟨c, hplace, hfits, hread⟩ := case_of_encode i
  rw [decodeWord_of_fits (List.mem_of_getElem? hplace) hfits, hread]

/-- Settles O7: the case of the instruction fits its word, and no other case does. -/
theorem decodeOfEncodeIsTheInstruction : Obligations.DecodeOfEncodeIsTheInstruction := by
  intro i rest
  exact ⟨decodeWord_encode i, by rw [encodeBytes, decodeBytes_bytesOfWord, decodeWord_encode]⟩

end Sys2Proof

/-! SUPPORT. The masks of the three stages as questions about fields: which words fit a case, what the case's format
keeps of them, and which words fit no case (30_encoding.md R62 to R67, R72, R73). -/

namespace Sys2Proof

/-- The bits of a word that the stage-1 mask keeps are its top nibble. -/
theorem and_F000_eq (w : Word) : w &&& 0xF000 = packXyn w.fieldTop 0 0 0 := by
  have h := packXyn_and_F000 w.fieldTop w.fieldX w.fieldY w.fieldN
  rwa [packXyn_fields] at h

/-- The bits of a word that the stage-2 mask keeps are its top and low nibbles. -/
theorem and_F00F_eq (w : Word) : w &&& 0xF00F = packXyn w.fieldTop 0 0 w.fieldN := by
  have h := packXyn_and_F00F w.fieldTop w.fieldX w.fieldY w.fieldN
  rwa [packXyn_fields] at h

/-- The bits of a word that the stage-3 mask keeps are its top nibble and its low byte. -/
theorem and_F0FF_eq (w : Word) : w &&& 0xF0FF = packXkk w.fieldTop 0 w.fieldKk := by
  have h := packXyn_and_F0FF w.fieldTop w.fieldX w.fieldY w.fieldN
  rw [packXyn_fields] at h
  exact h.trans (congrArg (_ ++ ·) (fieldKk_eq w).symm)

/-- A case of stage 1 fits the words with its top nibble (R65). -/
theorem stage1_fits_iff {c : Case} (hc : c ∈ stage1Cases) (w : Word) :
    c.fits w = true ↔ w.fieldTop = c.value.fieldTop := by
  obtain ⟨hmask, hvalue⟩ : c.mask = 0xF000 ∧ packXyn c.value.fieldTop 0 0 0 = c.value := by revert c; decide
  rw [Case.fits_iff, hmask, and_F000_eq]
  exact ⟨fun h => by rw [← h, packXyn_fieldTop], fun h => by rw [h, hvalue]⟩

/-- A case of stage 2 fits the words with its top and low nibbles (R66). -/
theorem stage2_fits_iff {c : Case} (hc : c ∈ stage2Cases) (w : Word) :
    c.fits w = true ↔ w.fieldTop = c.value.fieldTop ∧ w.fieldN = c.value.fieldN := by
  obtain ⟨hmask, hvalue⟩ : c.mask = 0xF00F ∧ packXyn c.value.fieldTop 0 0 c.value.fieldN = c.value := by
    revert c; decide
  rw [Case.fits_iff, hmask, and_F00F_eq]
  exact ⟨fun h => by rw [← h]; simp, fun ⟨htop, hn⟩ => by rw [htop, hn, hvalue]⟩

/-- A case of stage 3 fits the words with its top nibble and its low byte (R67). -/
theorem stage3_fits_iff {c : Case} (hc : c ∈ stage3Cases) (w : Word) :
    c.fits w = true ↔ w.fieldTop = c.value.fieldTop ∧ w.fieldKk = c.value.fieldKk := by
  obtain ⟨hmask, hvalue⟩ : c.mask = 0xF0FF ∧ packXkk c.value.fieldTop 0 c.value.fieldKk = c.value := by
    revert c; decide
  rw [Case.fits_iff, hmask, and_F0FF_eq]
  exact ⟨fun h => by rw [← h]; simp, fun ⟨htop, hkk⟩ => by rw [htop, hkk, hvalue]⟩

/-! What the formats keep of a word, by its top nibble (R63, R73). -/

/-- What the bits of format `xy` leave of a word: its low nibble is cleared. -/
theorem and_FFF0_eq (w : Word) : w &&& 0xFFF0 = packXyn w.fieldTop w.fieldX w.fieldY 0 := by
  rw [and_eq_iff_fields]
  simp only [packXyn_fieldTop, packXyn_fieldX, packXyn_fieldY, packXyn_fieldN]
  exact ⟨BitVec.and_allOnes, BitVec.and_allOnes, BitVec.and_allOnes, BitVec.and_zero⟩

section
variable {top : Nibble} (w : Word) (htop : w.fieldTop = top)
include htop

theorem packNnn_of_top : packNnn top w.fieldAddr = w &&& 0xFFFF :=
  htop ▸ (packNnn_fields w).trans (Laws.and_all_bits w).symm

theorem packXkk_of_top : packXkk top w.fieldX w.fieldKk = w &&& 0xFFFF :=
  htop ▸ (packXkk_fields w).trans (Laws.and_all_bits w).symm

theorem packXyn_of_top : packXyn top w.fieldX w.fieldY w.fieldN = w &&& 0xFFFF :=
  htop ▸ (packXyn_fields w).trans (Laws.and_all_bits w).symm

theorem packXy_of_top : packXyn top w.fieldX w.fieldY 0 = w &&& 0xFFF0 :=
  htop ▸ (and_FFF0_eq w).symm

end

/-- Encoding what a case of stage 1 reads: the list is the format column of R65. -/
theorem encode_read_stage1 : ∀ c ∈ stage1Cases, ∀ w : Word, w.fieldTop = c.value.fieldTop →
    encode (c.read w) = w &&& usedBits (c.read w) := by
  simp only [stage1Cases, List.forall_mem_cons]
  exact ⟨packNnn_of_top, packNnn_of_top, packNnn_of_top, packXkk_of_top, packXkk_of_top, packXy_of_top,
    packXkk_of_top, packXkk_of_top, packXy_of_top, packNnn_of_top, packNnn_of_top, packXkk_of_top, packXyn_of_top,
    List.forall_mem_nil _⟩

/-- Encoding what a case of stage 2 reads: every case has format `xyf` (R66). -/
theorem encode_read_stage2 : ∀ c ∈ stage2Cases, ∀ w : Word,
    w.fieldTop = c.value.fieldTop ∧ w.fieldN = c.value.fieldN → encode (c.read w) = w &&& usedBits (c.read w) := by
  have keeps {top n : Nibble} (w : Word) (h : w.fieldTop = top ∧ w.fieldN = n) :
      packXyn top w.fieldX w.fieldY n = w &&& 0xFFFF := h.2 ▸ packXyn_of_top w h.1
  simp only [stage2Cases, List.forall_mem_cons]
  exact ⟨keeps, keeps, keeps, keeps, keeps, keeps, keeps, keeps, keeps, List.forall_mem_nil _⟩

/-- Encoding what a case of stage 3 reads: every case has format `xff` (R67). -/
theorem encode_read_stage3 : ∀ c ∈ stage3Cases, ∀ w : Word,
    w.fieldTop = c.value.fieldTop ∧ w.fieldKk = c.value.fieldKk → encode (c.read w) = w &&& usedBits (c.read w) := by
  have keeps {top : Nibble} {kk : Byte} (w : Word) (h : w.fieldTop = top ∧ w.fieldKk = kk) :
      packXkk top w.fieldX kk = w &&& 0xFFFF := h.2 ▸ packXkk_of_top w h.1
  simp only [stage3Cases, List.forall_mem_cons]
  exact ⟨keeps, keeps, keeps, keeps, keeps, keeps, keeps, keeps, keeps, keeps, keeps, List.forall_mem_nil _⟩

/-- Encoding what a word decodes to clears the bits its format ignores and keeps the others (R63, R73). -/
theorem encode_of_decodeWord {w : Word} {i : Instr} (h : decodeWord w = .known i) : encode i = w &&& usedBits i := by
  obtain ⟨c, hc, hfits, rfl⟩ := decodeWord_known h
  rw [allCases, List.mem_append, List.mem_append] at hc
  rcases hc with (hc | hc) | hc
  · exact encode_read_stage1 c hc w ((stage1_fits_iff hc w).mp hfits)
  · exact encode_read_stage2 c hc w ((stage2_fits_iff hc w).mp hfits)
  · exact encode_read_stage3 c hc w ((stage3_fits_iff hc w).mp hfits)

/-! Stage 1 reads a word by its top nibble. -/

/-- The dispatch reads a word by the case of stage 1 with its top nibble (R65). -/
theorem decodeWord_of_top {k : Nat} {c : Case} {w : Word} (hplace : stage1Cases[k]? = some c)
    (htop : w.fieldTop = c.value.fieldTop) : decodeWord w = .known (c.read w) := by
  have hc : c ∈ stage1Cases := List.mem_of_getElem? hplace
  exact decodeWord_of_fits (by simp [allCases, hc]) ((stage1_fits_iff hc w).mpr htop)

theorem decodeWord_of_top_5 {w : Word} (htop : w.fieldTop = 0x5) :
    decodeWord w = .known (.seReg w.fieldX w.fieldY) := decodeWord_of_top (k := 5) rfl htop

theorem decodeWord_of_top_9 {w : Word} (htop : w.fieldTop = 0x9) :
    decodeWord w = .known (.sneReg w.fieldX w.fieldY) := decodeWord_of_top (k := 8) rfl htop

/-- The words up to 0x0FFF are those of top nibble 0. -/
theorem fieldTop_of_le_0FFF {w : Word} (h : w ≤ 0x0FFF) : w.fieldTop = 0 := by
  have hle : w.toNat ≤ 4095 := h
  refine BitVec.eq_of_toNat_eq ((fieldTop_toNat w).trans ?_)
  rw [Nat.div_eq_of_lt (by omega)]
  rfl

/-- Words with the same upper twelve bits agree in every field but the low nibble. -/
theorem fields_eq_of_upper_twelve {v w : Word} (h : v.extractLsb' 4 12 = w.extractLsb' 4 12) :
    v.fieldTop = w.fieldTop ∧ v.fieldX = w.fieldX ∧ v.fieldY = w.fieldY := by
  have hupper : v.toNat / 16 % 4096 = w.toNat / 16 % 4096 := by
    simpa [BitVec.extractLsb'_toNat, Nat.shiftRight_eq_div_pow] using congrArg BitVec.toNat h
  refine ⟨BitVec.eq_of_toNat_eq ?_, BitVec.eq_of_toNat_eq ?_, BitVec.eq_of_toNat_eq ?_⟩
  · rw [fieldTop_toNat, fieldTop_toNat]
    omega
  · rw [fieldX_toNat, fieldX_toNat]
    omega
  · rw [fieldY_toNat, fieldY_toNat]
    omega

/-- Settles O8: by stage, the format of a case keeps every bit that its fields and its match value cover. -/
theorem encodeOfDecodeKeepsEveryUsedBit : Obligations.EncodeOfDecodeKeepsEveryUsedBit :=
  fun _ _ => encode_of_decodeWord

/-- Settles O10: stage 1 reads the word by its top nibble, and the fields read are not among the ignored bits. -/
theorem stageOneIgnoresBitsBelowItsFields : Obligations.StageOneIgnoresBitsBelowItsFields := by
  refine ⟨fun v w htop hupper => ?_, fun _ => decodeWord_of_top_5, fun _ => decodeWord_of_top_9, fun w hle => ?_⟩
  · obtain ⟨hvtop, hx, hy⟩ := fields_eq_of_upper_twelve hupper
    rcases htop with htop | htop
    · rw [decodeWord_of_top_5 htop, decodeWord_of_top_5 (hvtop.trans htop), hx, hy]
    · rw [decodeWord_of_top_9 htop, decodeWord_of_top_9 (hvtop.trans htop), hx, hy]
  · exact decodeWord_of_top (k := 0) rfl (fieldTop_of_le_0FFF hle)

end Sys2Proof

/-! SUPPORT. The Unknown space by fields, the known words counted, and the cases tried in another order
(30_encoding.md R68, R70, R72). -/

namespace Sys2Proof

/-- The functions of top nibble 8 that stage 2 leaves out (R72). -/
def aluUnused : List Nibble := [0x8, 0x9, 0xA, 0xB, 0xC, 0xD, 0xF]

/-- The low bytes of top nibble E that stage 3 knows (R67). -/
def eFunctions : List Byte := [0x9E, 0xA1]

/-- The low bytes of top nibble F that stage 3 knows (R67). -/
def fFunctions : List Byte := [0x07, 0x0A, 0x15, 0x18, 0x1E, 0x29, 0x33, 0x55, 0x65]

/-- A word is Unknown exactly when no case fits it (R71). -/
theorem unknown_iff_no_case_fits (w : Word) :
    (∃ u, decodeWord w = .unknown u) ↔ ∀ c ∈ allCases, ¬c.fits w = true := by
  constructor
  · rintro ⟨u, h⟩ c hc
    simp [(decodeWord_unknown h).2 c hc]
  · intro hmiss
    cases h : decodeWord w with
    | known i =>
      obtain ⟨c, hc, hfits, -⟩ := decodeWord_known h
      exact absurd hfits (hmiss c hc)
    | unknown u => exact ⟨u, rfl⟩

/-- Stage 1 leaves the words of three top nibbles (R65). -/
theorem stage1_misses_iff (w : Word) :
    (∀ c ∈ stage1Cases, ¬c.fits w = true) ↔ w.fieldTop = 0x8 ∨ w.fieldTop = 0xE ∨ w.fieldTop = 0xF := by
  have tops : ∀ top : Nibble, (∀ c ∈ stage1Cases, ¬top = c.value.fieldTop) ↔ top = 0x8 ∨ top = 0xE ∨ top = 0xF := by
    decide
  rw [← tops]
  exact forall₂_congr fun c hc => not_congr (stage1_fits_iff hc w)

/-- Stage 2 leaves, of the words of top nibble 8, those of seven functions (R66). -/
theorem stage2_misses_iff (w : Word) :
    (∀ c ∈ stage2Cases, ¬c.fits w = true) ↔ (w.fieldTop = 0x8 → w.fieldN ∈ aluUnused) := by
  have functions : ∀ n : Nibble, (∀ c ∈ stage2Cases, ¬n = c.value.fieldN) ↔ n ∈ aluUnused := by decide
  have top : ∀ c ∈ stage2Cases, c.value.fieldTop = 0x8 := by decide
  rw [← functions]
  constructor
  · exact fun h htop c hc hn => h c hc ((stage2_fits_iff hc w).mpr ⟨htop.trans (top c hc).symm, hn⟩)
  · intro h c hc hfits
    obtain ⟨htop, hn⟩ := (stage2_fits_iff hc w).mp hfits
    exact h (htop.trans (top c hc)) c hc hn

/-- Stage 3 leaves, of the words of top nibbles E and F, those of no listed low byte (R67). -/
theorem stage3_misses_iff (w : Word) :
    (∀ c ∈ stage3Cases, ¬c.fits w = true) ↔
      (w.fieldTop = 0xE → w.fieldKk ∉ eFunctions) ∧ (w.fieldTop = 0xF → w.fieldKk ∉ fFunctions) := by
  have hfields : (∀ c ∈ stage3Cases, ¬c.fits w = true) ↔
      ∀ c ∈ stage3Cases, ¬(w.fieldTop = c.value.fieldTop ∧ w.fieldKk = c.value.fieldKk) :=
    forall₂_congr fun c hc => not_congr (stage3_fits_iff hc w)
  rw [hfields]
  simp [stage3Cases, eFunctions, fFunctions, Word.fieldTop, Word.fieldKk, imp_and, and_assoc]

/-- The Unknown words by top nibble (R72). -/
theorem unknown_iff (w : Word) :
    (∃ u, decodeWord w = .unknown u) ↔
      (w.fieldTop = 0x8 ∧ w.fieldN ∈ aluUnused) ∨ (w.fieldTop = 0xE ∧ w.fieldKk ∉ eFunctions) ∨
        (w.fieldTop = 0xF ∧ w.fieldKk ∉ fFunctions) := by
  rw [unknown_iff_no_case_fits, allCases, List.forall_mem_append, List.forall_mem_append, stage1_misses_iff,
    stage2_misses_iff, stage3_misses_iff]
  constructor
  · rintro ⟨⟨htop | htop | htop, halu⟩, he, hf⟩
    · exact .inl ⟨htop, halu htop⟩
    · exact .inr (.inl ⟨htop, he htop⟩)
    · exact .inr (.inr ⟨htop, hf htop⟩)
  · rintro (⟨htop, h⟩ | ⟨htop, h⟩ | ⟨htop, h⟩) <;> simp [htop, h]

/-! Counting: a top nibble's words repeat with the period of its stage's mask (R70). -/

/-- Of `m * k` consecutive numbers, each remainder by `k` comes `m` times. -/
theorem countP_range_mod (p : Nat → Bool) (m k : Nat) :
    (List.range (m * k)).countP (fun n => p (n % k)) = m * (List.range k).countP p := by
  induction m with
  | zero => simp
  | succ m ih =>
    have hblock : (List.range k).countP (fun n => p ((m * k + n) % k)) = (List.range k).countP p :=
      List.countP_congr fun n hn => by
        rw [Nat.mul_add_mod_self_right, Nat.mod_eq_of_lt (List.mem_range.mp hn)]
    rw [Nat.succ_mul, List.range_add, List.countP_append, List.countP_map, ih, Nat.succ_mul]
    exact congrArg _ hblock

/-- Each member of a list of words comes once among the numbers of their width. -/
theorem countP_range_ofNat_mem {w : Nat} {l : List (BitVec w)} (hl : l.Nodup) :
    (List.range (2 ^ w)).countP (fun n => decide (BitVec.ofNat w n ∈ l)) = l.length := by
  have hperm : ((List.range (2 ^ w)).filter fun n => decide (BitVec.ofNat w n ∈ l)).Perm (l.map BitVec.toNat) := by
    refine (List.perm_ext_iff_of_nodup (List.nodup_range.filter _) (hl.map BitVec.toNat_injective)).mpr fun n => ?_
    simp only [List.mem_filter, List.mem_range, decide_eq_true_iff, List.mem_map]
    constructor
    · rintro ⟨hn, hmem⟩
      exact ⟨_, hmem, by rw [BitVec.toNat_ofNat, Nat.mod_eq_of_lt hn]⟩
    · rintro ⟨b, hb, rfl⟩
      exact ⟨b.isLt, by rwa [BitVec.ofNat_toNat, BitVec.setWidth_eq]⟩
  rw [List.countP_eq_length_filter, hperm.length_eq, List.length_map]

/-- The count's test fails exactly on the Unknown words. -/
theorem isKnownWord_eq_false_iff_unknown (n : Nat) :
    Spec.isKnownWord n = false ↔ ∃ u, decodeWord (BitVec.ofNat 16 n) = .unknown u := by
  unfold Spec.isKnownWord
  cases decodeWord (BitVec.ofNat 16 n) <;> simp

/-! The fields of a word given as the number of its top nibble and its low twelve bits. -/

theorem fieldTop_ofNat (top : Nat) {low : Nat} (hlow : low < 4096) :
    Word.fieldTop (BitVec.ofNat 16 (top * 4096 + low)) = BitVec.ofNat 4 top := by
  apply BitVec.eq_of_toNat_eq
  rw [fieldTop_toNat, BitVec.toNat_ofNat, BitVec.toNat_ofNat]
  omega

theorem fieldN_ofNat (top low : Nat) :
    Word.fieldN (BitVec.ofNat 16 (top * 4096 + low)) = BitVec.ofNat 4 (low % 16) := by
  apply BitVec.eq_of_toNat_eq
  rw [fieldN_toNat, BitVec.toNat_ofNat, BitVec.toNat_ofNat]
  omega

theorem fieldKk_ofNat (top low : Nat) :
    Word.fieldKk (BitVec.ofNat 16 (top * 4096 + low)) = BitVec.ofNat 8 (low % 256) := by
  apply BitVec.eq_of_toNat_eq
  rw [fieldKk_toNat, BitVec.toNat_ofNat, BitVec.toNat_ofNat]
  omega

/-- Whether a number below 16 is the number of a given top nibble. -/
theorem ofNat_nibble_eq_iff {top : Nat} (htop : top < 16) (t : Nibble) : BitVec.ofNat 4 top = t ↔ top = t.toNat := by
  rw [← BitVec.toNat_inj, BitVec.toNat_ofNat, Nat.mod_eq_of_lt htop]

/-- The Unknown words by the number of their top nibble and a remainder of their low twelve bits. -/
theorem isKnownWord_eq_false_iff {top low : Nat} (htop : top < 16) (hlow : low < 4096) :
    Spec.isKnownWord (top * 4096 + low) = false ↔
      (top = 0x8 ∧ BitVec.ofNat 4 (low % 16) ∈ aluUnused) ∨ (top = 0xE ∧ BitVec.ofNat 8 (low % 256) ∉ eFunctions) ∨
        (top = 0xF ∧ BitVec.ofNat 8 (low % 256) ∉ fFunctions) := by
  rw [isKnownWord_eq_false_iff_unknown, unknown_iff, fieldTop_ofNat top hlow, fieldN_ofNat, fieldKk_ofNat]
  simp only [ofNat_nibble_eq_iff htop]
  rfl

/-- The known words of a top nibble are counted over one period of their low twelve bits. -/
theorem knownWordsOfTop_eq_mul {top m k : Nat} {unknown : Nat → Prop} [DecidablePred unknown] (hmk : m * k = 4096)
    (hunknown : ∀ low < 4096, Spec.isKnownWord (top * 4096 + low) = false ↔ unknown (low % k)) :
    Spec.knownWordsOfTop top = m * (List.range k).countP fun n => !decide (unknown n) := by
  rw [Spec.knownWordsOfTop, ← countP_range_mod, hmk]
  refine List.countP_congr fun low hlow => ?_
  rw [← Bool.not_eq_false, hunknown low (List.mem_range.mp hlow), Bool.not_eq_true', decide_eq_false_iff_not]

theorem knownWordsOfTop_8 : Spec.knownWordsOfTop 0x8 = 2304 := by
  rw [knownWordsOfTop_eq_mul (m := 256) (k := 16) (unknown := fun n => BitVec.ofNat 4 n ∈ aluUnused) rfl]
  · decide
  · intro low hlow
    rw [isKnownWord_eq_false_iff (by decide) hlow]
    simp

theorem knownWordsOfTop_E : Spec.knownWordsOfTop 0xE = 32 := by
  rw [knownWordsOfTop_eq_mul (m := 16) (k := 256) (unknown := fun n => BitVec.ofNat 8 n ∉ eFunctions) rfl]
  · have hcount : (List.range 256).countP (fun n => decide (BitVec.ofNat 8 n ∈ eFunctions)) = 2 :=
      countP_range_ofNat_mem (w := 8) (by decide)
    simp only [decide_not, Bool.not_not, hcount]
  · intro low hlow
    rw [isKnownWord_eq_false_iff (by decide) hlow]
    simp

theorem knownWordsOfTop_F : Spec.knownWordsOfTop 0xF = 144 := by
  rw [knownWordsOfTop_eq_mul (m := 16) (k := 256) (unknown := fun n => BitVec.ofNat 8 n ∉ fFunctions) rfl]
  · have hcount : (List.range 256).countP (fun n => decide (BitVec.ofNat 8 n ∈ fFunctions)) = 9 :=
      countP_range_ofNat_mem (w := 8) (by decide)
    simp only [decide_not, Bool.not_not, hcount]
  · intro low hlow
    rw [isKnownWord_eq_false_iff (by decide) hlow]
    simp

/-- Stage 1 knows every word of the other top nibbles. -/
theorem knownWordsOfTop_of_stage1 {top : Nat} (htop : top < 16) (h8 : top ≠ 0x8) (hE : top ≠ 0xE) (hF : top ≠ 0xF) :
    Spec.knownWordsOfTop top = 4096 := by
  rw [knownWordsOfTop_eq_mul (m := 4096) (k := 1) (unknown := fun _ => False) rfl]
  · rfl
  · intro low hlow
    rw [isKnownWord_eq_false_iff htop hlow]
    simp [h8, hE, hF]

/-- The counts of R70's table. -/
theorem knownWordsOfTop_eq {top : Nat} (htop : top < 16) :
    Spec.knownWordsOfTop top =
      if top = 0x8 then 2304 else if top = 0xE then 32 else if top = 0xF then 144 else 4096 := by
  split_ifs with h8 hE hF
  · exact h8 ▸ knownWordsOfTop_8
  · exact hE ▸ knownWordsOfTop_E
  · exact hF ▸ knownWordsOfTop_F
  · exact knownWordsOfTop_of_stage1 htop h8 hE hF

/-- Settles O12: a top nibble's words repeat with the period of its stage's mask, and one period is counted. -/
theorem knownWordCountsPerTopNibble : Obligations.KnownWordCountsPerTopNibble := by
  have hsum : ((List.range 16).map Spec.knownWordsOfTop).sum = 55728 := by
    rw [List.map_congr_left fun top htop => knownWordsOfTop_eq (List.mem_range.mp htop)]
    decide
  exact ⟨fun top htop => knownWordsOfTop_eq htop, hsum, by rw [hsum]⟩

/-- Settles O11: stage 1 leaves three top nibbles, and stages 2 and 3 take the listed functions of them. -/
theorem unknownSpaceIsTheListedWords : Obligations.UnknownSpaceIsTheListedWords :=
  unknown_iff

/-- Cases in another order are the same cases, and the one that fits is the same (R70). -/
theorem readStage_of_perm {cs : List Case} (hperm : cs.Perm allCases) (w : Word) :
    readStage cs w = readStage allCases w := by
  cases hread : readStage allCases w with
  | none => exact readStage_none_iff.mpr fun c hc => readStage_none_iff.mp hread c (hperm.subset hc)
  | some i =>
    obtain ⟨c, hc, hfits, rfl⟩ := readStage_some hread
    exact readStage_eq_of_fits hperm.subset (hperm.symm.subset hc) hfits

/-- Settles O13: a reordering holds the same cases, and no two of them fit one word. -/
theorem orderOfCasesDoesNotChangeTheResult : Obligations.OrderOfCasesDoesNotChangeTheResult := by
  intro cs w hperm
  rw [readStage_of_perm hperm]
  exact decodeWord_eq w

end Sys2Proof

/-! SUPPORT. The comparators exclude each other, so the id encoder is a sum (30_encoding.md R69, R70, R75, R76), and an
Unknown word has none that is 1 (R80). -/

namespace Sys2Proof.Machine

theorem matchLine_iff {r : MatchRow} {w : Word} : matchLine r w = true ↔ w &&& r.mask = r.value := beq_iff_eq

/-- Two different rows differ on the bits both their masks keep (R70). -/
theorem matchRows_apart : ∀ r ∈ matchRows, ∀ q ∈ matchRows, r.value &&& q.mask = q.value &&& r.mask → r = q := by
  decide

/-- At most one of the 33 comparators is 1 (R70). -/
theorem eq_of_matchLine {w : Word} {r q : MatchRow} (hr : r ∈ matchRows) (hq : q ∈ matchRows)
    (hrw : matchLine r w = true) (hqw : matchLine q w = true) : r = q :=
  matchRows_apart r hr q hq (value_and_mask_of_two_matches (matchLine_iff.mp hrw) (matchLine_iff.mp hqw))

/-! The id encoder. -/

theorem stageHit_eq_false_iff {rows : List MatchRow} {w : Word} :
    stageHit rows w = false ↔ ∀ r ∈ rows, ¬matchLine r w = true :=
  List.any_eq_false

/-- Rows that hold no match give id 0. -/
theorem hitId_of_miss {rows : List MatchRow} {w : Word} (h : stageHit rows w = false) : hitId rows w = 0 := by
  induction rows with
  | nil => rfl
  | cons r rest ih =>
    obtain ⟨hr, hrest⟩ := List.forall_mem_cons.mp (stageHit_eq_false_iff.mp h)
    rw [hitId, if_neg hr, ih (stageHit_eq_false_iff.mpr hrest)]

theorem hitId_append (rows more : List MatchRow) (w : Word) :
    hitId (rows ++ more) w = if stageHit rows w then hitId rows w else hitId more w := by
  induction rows with
  | nil => rfl
  | cons r rest ih =>
    by_cases hr : matchLine r w = true
    · simp [hitId, stageHit, hr]
    · simpa [hitId, stageHit, hr] using ih

/-- The id encoder finds the first row of the whole match array that matches (R76). -/
theorem encodeId_eq_hitId (w : Word) : encodeId w = hitId matchRows w := by
  rw [matchRows, List.append_assoc, hitId_append, hitId_append, encodeId]
  by_cases h3 : stageHit stage3Rows w = true
  · rw [if_pos h3]
  · rw [if_neg h3, hitId_of_miss (Bool.eq_false_iff.mpr h3)]

/-- A sum over rows that hold no match adds nothing. -/
theorem oneHotSum_of_miss {rows : List MatchRow} {w : Word} (sum : BitVec 6) (h : ∀ r ∈ rows, ¬matchLine r w = true) :
    rows.foldl (fun sum r => sum + if matchLine r w then r.id else 0) sum = sum := by
  induction rows with
  | nil => rfl
  | cons r rest ih =>
    obtain ⟨hr, hrest⟩ := List.forall_mem_cons.mp h
    simpa [hr] using ih hrest

/-- Over rows of which at most one matches, and which stand once each, the sum of the ids is the id of the first match. -/
theorem oneHotSum_eq {rows : List MatchRow} {w : Word} (hnodup : rows.Nodup)
    (hone : ∀ r ∈ rows, ∀ q ∈ rows, matchLine r w = true → matchLine q w = true → r = q) :
    rows.foldl (fun sum r => sum + if matchLine r w then r.id else 0) 0 = hitId rows w := by
  induction rows with
  | nil => rfl
  | cons r rest ih =>
    obtain ⟨hfresh, hrest⟩ := List.nodup_cons.mp hnodup
    by_cases hr : matchLine r w = true
    · have hmiss : ∀ q ∈ rest, ¬matchLine q w = true := fun q hq hqw =>
        hfresh (hone r (by simp) q (by simp [hq]) hr hqw ▸ hq)
      simpa [hitId, hr] using oneHotSum_of_miss r.id hmiss
    · have hones : ∀ p ∈ rest, ∀ q ∈ rest, matchLine p w = true → matchLine q w = true → p = q :=
        fun p hp q hq => hone p (by simp [hp]) q (by simp [hq])
      simpa [hitId, hr] using ih hrest hones

theorem oneHotId_eq (w : Word) : oneHotId w = encodeId w := by
  rw [encodeId_eq_hitId]
  exact oneHotSum_eq (by decide) fun r hr q hq => eq_of_matchLine hr hq

/-- The ids are 0 to 33 (10_state.md R26). -/
theorem encodeId_le (w : Word) : encodeId w ≤ 33 := by
  have hids : ∀ id ∈ matchRows.map MatchRow.id, id ≤ 33 := by decide
  rw [encodeId_eq_hitId]
  cases h : stageHit matchRows w with
  | true => exact hids _ (hitId_mem h)
  | false => simp [hitId_of_miss h]

/-- An Unknown word has id 0 and stage 0, and ROM word 0 drives zeros (R80). -/
theorem refDecode_of_unknown {w : Word} (h : ∀ r ∈ matchRows, w &&& r.mask ≠ r.value) :
    refDecode w = romPorts 0 0 w := by
  have hmiss : stageHit matchRows w = false := stageHit_eq_false_iff.mpr fun r hr hrw => h r hr (matchLine_iff.mp hrw)
  have hid : encodeId w = 0 := by rw [encodeId_eq_hitId, hitId_of_miss hmiss]
  rw [← structureOutputs_eq_refDecode, structureOutputs, (encodeStage_eq_zero_iff w).mpr hid, hid]

end Sys2Proof.Machine

namespace Sys2Proof

open Machine

/-- What the host's word decodes to, by the block's decoder (20_memory.md R41). -/
theorem decodeTableWord_eq_some_iff {nbits n : Nat} {i : Instr} :
    decodeTableWord nbits n = some i ↔ decodeWord (tableWord nbits n) = .known i := by
  have hbytes := decodeBytes_bytesOfWord (tableWord nbits n) []
  rw [List.append_nil] at hbytes
  rw [decodeTableWord, hbytes]
  cases decodeWord (tableWord nbits n) <;> simp

/-- A step runs the instruction the next word decodes to (30_encoding.md R81). -/
theorem step_of_known {s : State} {i : Instr} (h : decodeWord s.nextWord = .known i) : step s = exec i s.accept :=
  evaluate_of_known (by rwa [State.accept_opcodeI])

/-- Settles O15: two comparators that are both 1 would agree on the bits both masks keep. -/
theorem matchConditionsArePairwiseExclusive : Obligations.MatchConditionsArePairwiseExclusive :=
  ⟨rfl, fun _ hr _ hq _ => eq_of_matchLine hr hq⟩

/-- Settles O16: with at most one comparator at 1, the sum has at most one term that is not 0. -/
theorem idEncoderIsTheOneHotSum : Obligations.IdEncoderIsTheOneHotSum :=
  fun w => ⟨(oneHotId_eq w).symm, encodeId_le w⟩

/-- Settles O20: id and stage are 0, and ROM word 0 describes no mnemonic and no operand. -/
theorem unknownWordsSettleToZerosAndRawFields : Obligations.UnknownWordsSettleToZerosAndRawFields := by
  refine ⟨rfl, fun s hunknown => ?_⟩
  rw [step_eq_drive_refDecode, refDecode_of_unknown hunknown, ← State.accept_opcodeI]
  rfl

/-- Settles O14: a stage's values are distinct, so one masked word is the value of one row. -/
theorem atMostOneCaseOfAStageMatches : Obligations.AtMostOneCaseOfAStageMatches := by
  intro stage hstage
  have hmask : ∀ r ∈ stage.2, r.mask = stage.1 := by revert stage; decide
  have hdistinct : (stage.2.map MatchRow.value).Nodup := by revert stage; decide
  exact ⟨hmask, hdistinct, fun r hr q hq w hrw hqw =>
    List.inj_on_of_nodup_map hdistinct hr hq (hrw.symm.trans hqw)⟩

/-- Settles O6: the dispatch, evaluated on one word of each format and on an Unknown word. -/
theorem wordsOfTheEncodingTableDecode : Obligations.WordsOfTheEncodingTableDecode := by
  refine ⟨?_, ?_, ?_, ?_, ?_, ?_, ?_⟩ <;> decide

/-- Settles O18: the ROM words 13 and 0, evaluated. -/
theorem romWordOfDrawReadsByItsLayout : Obligations.RomWordOfDrawReadsByItsLayout :=
  ⟨rfl, rfl, rfl, rfl, rfl, rfl, rfl, rfl⟩

/-- Settles O19: the step evaluates the word it has accepted; the host's word is the next word of the state it is placed
in. -/
theorem stepRunsTheDecodedInstruction : Obligations.StepRunsTheDecodedInstruction :=
  fun s _ => ⟨s.accept_opcodeI, s.accept_pending, step_of_known, fun _ _ htable =>
    step_of_known (decodeTableWord_eq_some_iff.mp htable)⟩

end Sys2Proof

/-! SUPPORT. The formatter: markers stripped from a styled line, and the line of a settled record (30_encoding.md R85 to
R93). -/

namespace Sys2Proof.Machine

/-! Stripping markers. -/

theorem stripMarkers_append (front back : List Glyph) :
    stripMarkers (front ++ back) = stripMarkers front ++ stripMarkers back :=
  List.filterMap_append

theorem stripMarkers_map_char (text : List Char) : stripMarkers (text.map .char) = text := by
  induction text with
  | nil => rfl
  | cons c rest ih => exact congrArg (c :: ·) ih

/-- A piece's markers stand before and after its text, and stripping them leaves the text (R93). -/
theorem stripMarkers_styledPiece (p : Piece) : stripMarkers (styledPiece p) = p.text := by
  obtain ⟨style, text⟩ := p
  cases style with
  | none => exact stripMarkers_map_char text
  | some c =>
    calc stripMarkers (.startMarker c :: (text.map .char ++ [.endMarker c]))
      _ = stripMarkers (text.map .char ++ [.endMarker c]) := rfl
      _ = text ++ [] := by rw [stripMarkers_append, stripMarkers_map_char]; rfl
      _ = text := List.append_nil text

theorem stripMarkers_styledText (line : List Piece) : stripMarkers (styledText line) = plainText line := by
  induction line with
  | nil => rfl
  | cons p rest ih =>
    calc stripMarkers (styledText (p :: rest))
      _ = stripMarkers (styledPiece p) ++ stripMarkers (styledText rest) := stripMarkers_append _ _
      _ = p.text ++ plainText rest := by rw [stripMarkers_styledPiece, ih]

/-! The line of a record. -/

/-- The line of a row's record is the row's own form, after the digits of the word on `opcode_i`. -/
theorem InstrRow.displayOfOutputs_portsOf {i : Instr} {st : Stage} {id : BitVec 6} {m : Mnemonic} {args : List Arg}
    (row : InstrRow i st id m args) (w : Word) :
    displayOfOutputs (portsOf (stageCode st) id (mnemonicCode m) args w) = some (displayLine w (.known m args)) := by
  have hword : packNnn w.fieldTop w.fieldAddr = w := packNnn_fields w
  rw [displayOfOutputs, row.decodedOfOutputs_portsOf]
  simp [portsOf, hword]

/-- The line of an Unknown word's record is the marker, after the digits of the word (R92). -/
theorem displayOfOutputs_portsOf_unknown (w : Word) :
    displayOfOutputs (portsOf 0 0 0 [] w) = some (displayLine w .unknown) :=
  congrArg (fun v => some (displayLine v .unknown)) (packNnn_fields w)

theorem plainText_displayLine_known (w : Word) (m : Mnemonic) (args : List Arg) :
    plainText (displayLine w (.known m args)) =
      hex4 w ++ ' ' :: (padTo4 (mnemonicText m) ++ mnemonicText m ++ ' ' :: plainText (argsPieces args)) := by
  simp [plainText, displayLine]

theorem plainText_displayLine_unknown (w : Word) :
    plainText (displayLine w .unknown) = hex4 w ++ [' ', 'U', 'n', 'k', 'n', 'o', 'w', 'n'] := rfl

/-- A first register and an optional second one, in the bracket form (R86, R88). -/
theorem plainText_argsPieces_shift (x y : Nibble) :
    plainText (argsPieces [vReg x, vRegOptional y]) =
      ['V', hexUpper x] ++ [Char.ofNat 0x7B, ',', ' ', 'V', hexUpper y, Char.ofNat 0x7D] := rfl

theorem shr_row (x y : Nibble) : InstrRow (.shr x y) .two 20 .shr [vReg x, vRegOptional y] :=
  { id_ne_zero := by decide, id_le := by decide, stage := by decide, args_ne_nil := List.cons_ne_nil _ _,
    args_length := by simp, listed := rfl, form := rfl, shift := rfl }

theorem shl_row (x y : Nibble) : InstrRow (.shl x y) .two 22 .shl [vReg x, vRegOptional y] :=
  { id_ne_zero := by decide, id_le := by decide, stage := by decide, args_ne_nil := List.cons_ne_nil _ _,
    args_length := by simp, listed := rfl, form := rfl, shift := rfl }

end Sys2Proof.Machine

namespace Sys2Proof

open Machine

/-- Settles O39, by induction on the line: the markers of a piece are its own. -/
theorem styledLineStripsToThePlainLine : Obligations.StyledLineStripsToThePlainLine :=
  stripMarkers_styledText

/-- Settles O40: a step drives a row's record, whose known flag is set, or Unknown's. -/
theorem everySettledRecordDisplays : Obligations.EverySettledRecordDisplays := by
  intro s
  have hword : s.accept.opcodeI = s.nextWord := s.accept_opcodeI
  rcases step_cases s with ⟨i, st, id, m, args, row, hstep⟩ | hstep
  · have hknown : (driveKnown st id m args s.accept).out.known = true := row.knownFlag_eq
    refine ⟨_, _, hstep, row.displayOfOutputs_portsOf _, ?_, by simp [hknown]⟩
    rw [plainText_displayLine_known, hword]
    rfl
  · refine ⟨_, _, hstep, displayOfOutputs_portsOf_unknown _, ?_⟩
    rw [plainText_displayLine_unknown, hword]
    exact ⟨rfl, fun _ => rfl⟩

/-- Settles O41: both are rows with a first register and an optional second one. -/
theorem shiftsDisplayTheBracketForm : Obligations.ShiftsDisplayTheBracketForm := by
  intro x y s
  refine ⟨_, _, rfl, (shr_row x y).displayOfOutputs_portsOf s.opcodeI, ?_,
    _, _, rfl, (shl_row x y).displayOfOutputs_portsOf s.opcodeI, ?_⟩ <;>
  · rw [plainText_displayLine_known, plainText_argsPieces_shift]
    rfl

end Sys2Proof

/-! SUPPORT. The instruction rules, by case of the dispatch: a case alone reads its instruction, and exactly from the
words it fits (30_encoding.md R65 to R70). -/

namespace Sys2Proof

open Machine Spec

/-- The cases read the 33 instructions in the order of their constructors. -/
theorem map_ctorIdx_read_allCases (w : Word) : (allCases.map fun c => (c.read w).ctorIdx) = List.range 33 := rfl

/-- No two cases read the same instruction from a word. -/
theorem eq_of_read_eq {c d : Case} (hc : c ∈ allCases) (hd : d ∈ allCases) {w : Word} (h : c.read w = d.read w) :
    c = d := by
  have hnodup : (allCases.map fun c => (c.read w).ctorIdx).Nodup := by
    rw [map_ctorIdx_read_allCases]
    exact List.nodup_range
  exact List.inj_on_of_nodup_map hnodup hc hd (congrArg Instr.ctorIdx h)

/-- A word decodes to what a case reads from it exactly when the case fits it. -/
theorem decodeWord_eq_read_iff {c : Case} (hc : c ∈ allCases) (w : Word) :
    decodeWord w = .known (c.read w) ↔ w &&& c.mask = c.value := by
  rw [← Case.fits_iff]
  refine ⟨fun h => ?_, decodeWord_of_fits hc⟩
  obtain ⟨d, hd, hfits, hread⟩ := decodeWord_known h
  rwa [eq_of_read_eq hc hd hread]

/-- The case at a place of the dispatch follows a rule when the meaning of what it reads drives the rule's record. -/
theorem instructionRule_of_case (place : Nat) {mask value : Word} {read : Word → Instr} {stage : BitVec 2}
    {id : BitVec 6} {mnem : BitVec 5} {nops : BitVec 2} {slot0 slot1 slot2 : Word → Slot}
    (hcase : allCases[place]? = some ⟨mask, value, read⟩)
    (hdrives : ∀ w s, exec (read w) s =
      .next (settledTo true stage id mnem nops (slot0 w) (slot1 w) (slot2 w) s)) :
    InstructionRule mask value read stage id mnem nops slot0 slot1 slot2 := by
  intro w s
  have hdecodes := decodeWord_eq_read_iff (List.mem_of_getElem? hcase)
  refine ⟨hdecodes w, hdrives w s, fun hmatch => ?_⟩
  rw [step_of_known ((hdecodes s.nextWord).mpr hmatch), hdrives]

/-- Settles O1: format `nnn`, each rule by its case of stage 1, whose meaning computes to the rule's record. -/
theorem addressFormatInstructionsFollowTheirRules : Obligations.AddressFormatInstructionsFollowTheirRules :=
  ⟨instructionRule_of_case 0 rfl fun _ _ => rfl, instructionRule_of_case 1 rfl fun _ _ => rfl,
    instructionRule_of_case 2 rfl fun _ _ => rfl, instructionRule_of_case 9 rfl fun _ _ => rfl,
    instructionRule_of_case 10 rfl fun _ _ => rfl⟩

/-- Settles O2: format `xkk`, each rule by its case of stage 1, whose meaning computes to the rule's record. -/
theorem registerByteInstructionsFollowTheirRules : Obligations.RegisterByteInstructionsFollowTheirRules :=
  ⟨instructionRule_of_case 3 rfl fun _ _ => rfl, instructionRule_of_case 4 rfl fun _ _ => rfl,
    instructionRule_of_case 6 rfl fun _ _ => rfl, instructionRule_of_case 7 rfl fun _ _ => rfl,
    instructionRule_of_case 11 rfl fun _ _ => rfl⟩

/-- Settles O3: formats `xy` and `xyn`, each rule by its case of stage 1, whose meaning computes to the rule's record. -/
theorem twoRegisterStageOneInstructionsFollowTheirRules :
    Obligations.TwoRegisterStageOneInstructionsFollowTheirRules :=
  ⟨instructionRule_of_case 5 rfl fun _ _ => rfl, instructionRule_of_case 8 rfl fun _ _ => rfl,
    instructionRule_of_case 12 rfl fun _ _ => rfl⟩

end Sys2Proof

namespace Sys2Proof

/-- Settles O4: format `xyf`, each rule by its case of stage 2, which stand at 13 to 21 of the dispatch; the other seven
functions are the first family of the Unknown space (R72). -/
theorem aluGroupInstructionsFollowTheirRules : Obligations.AluGroupInstructionsFollowTheirRules :=
  ⟨instructionRule_of_case 13 rfl fun _ _ => rfl, instructionRule_of_case 14 rfl fun _ _ => rfl,
    instructionRule_of_case 15 rfl fun _ _ => rfl, instructionRule_of_case 16 rfl fun _ _ => rfl,
    instructionRule_of_case 17 rfl fun _ _ => rfl, instructionRule_of_case 18 rfl fun _ _ => rfl,
    instructionRule_of_case 19 rfl fun _ _ => rfl, instructionRule_of_case 20 rfl fun _ _ => rfl,
    instructionRule_of_case 21 rfl fun _ _ => rfl,
    fun w htop hfunction => (unknownSpaceIsTheListedWords w).mpr (.inl ⟨htop, hfunction⟩)⟩

end Sys2Proof

namespace Sys2Proof

/-- Settles O5: format `xff`, each rule by its case of stage 3, which stand at 22 to 32 of the dispatch; the words of the
corner cases lie in the second and third families of the Unknown space (R72), as their top nibble and low byte tell. -/
theorem stageThreeInstructionsFollowTheirRules : Obligations.StageThreeInstructionsFollowTheirRules := by
  refine ⟨instructionRule_of_case 22 rfl fun _ _ => rfl, instructionRule_of_case 23 rfl fun _ _ => rfl,
    instructionRule_of_case 24 rfl fun _ _ => rfl, instructionRule_of_case 25 rfl fun _ _ => rfl,
    instructionRule_of_case 26 rfl fun _ _ => rfl, instructionRule_of_case 27 rfl fun _ _ => rfl,
    instructionRule_of_case 28 rfl fun _ _ => rfl, instructionRule_of_case 29 rfl fun _ _ => rfl,
    instructionRule_of_case 30 rfl fun _ _ => rfl, instructionRule_of_case 31 rfl fun _ _ => rfl,
    instructionRule_of_case 32 rfl fun _ _ => rfl,
    fun w hcorner => (unknownSpaceIsTheListedWords w).mpr (.inr ?_)⟩
  revert w
  simp only [List.forall_mem_cons]
  simp

end Sys2Proof

/-! SUPPORT. Every hold answers, and what the walker does with a buffer: its two errors and the words it feeds
(60_exceptions.md R160, R162). -/

namespace Sys2Proof.Machine

/-- An instruction's meaning answers a next state. -/
theorem exec_answers (i : Instr) (s : State) : ∃ t, exec i s = .next t := by
  obtain ⟨_, _, _, _, hexec⟩ := exec_drives i s
  exact ⟨_, hexec⟩

/-- Holding the input for any time answers a next state: the outputs stay, go on settling, or settle. -/
theorem hold_answers (d : Nat) (s : State) : ∃ t, hold d s = .next t := by
  cases hsettle : s.settle with
  | settled => exact ⟨s, hold_settled d hsettle⟩
  | settling elapsed =>
    rcases Nat.lt_or_ge (elapsed + d) Config.tDecode with hshort | hlong
    · exact ⟨_, hold_short hsettle hshort⟩
    · obtain ⟨_, hdrive⟩ := evaluate_drives s
      exact ⟨_, (hold_long hsettle hlong).trans hdrive⟩

/-- A buffer of odd length is not whole words. -/
theorem walkerWords_of_odd {buffer : List Byte} (h : buffer.length % 2 = 1) : walkerWords buffer = none := by
  refine Option.eq_none_iff_forall_ne_some.mpr fun words hwords => ?_
  have hlength := length_of_walkerWords hwords
  omega

section
variable {buffer : List Byte} (s : State)

/-- A buffer below the minimum size is an error, whatever its bytes. -/
theorem State.feedBuffer_of_short (h : buffer.length < Config.minBufferBytes) :
    s.feedBuffer buffer = .error .bufferTooShort :=
  if_pos h

/-- The words of a buffer that is long enough come after those pending, and nothing else changes. -/
theorem State.feedBuffer_of_words {words : List Word} (hlong : Config.minBufferBytes ≤ buffer.length)
    (hwords : walkerWords buffer = some words) :
    s.feedBuffer buffer = .ok { s with pending := s.pending ++ words } := by
  rw [State.feedBuffer, if_neg (Nat.not_lt.mpr hlong), hwords]

/-- A buffer that is long enough and leaves a byte over is an error. -/
theorem State.feedBuffer_of_no_words (hlong : Config.minBufferBytes ≤ buffer.length)
    (hwords : walkerWords buffer = none) : s.feedBuffer buffer = .error .oddTail := by
  rw [State.feedBuffer, if_neg (Nat.not_lt.mpr hlong), hwords]

end

end Sys2Proof.Machine

namespace Sys2Proof

open Machine

/-- Settles O22: a step drives the ports and so settles them, a meaning drives them too, and a hold answers on either
side of the settle time. -/
theorem nothingFaultsOrRefuses : Obligations.NothingFaultsOrRefuses := by
  refine ⟨fun s => ?_, exec_answers, hold_answers⟩
  obtain ⟨o, hstep⟩ := step_drives s
  exact ⟨_, hstep, State.drive_settle o s.accept⟩

/-- Settles O43, by the walker's two checks in their order: the length, then whether a byte is left over. -/
theorem walkerChecksTheBufferBeforeTheBlock : Obligations.WalkerChecksTheBufferBeforeTheBlock :=
  fun _ s => ⟨s.feedBuffer_of_short,
    fun _ hlong hwords => ⟨_, s.feedBuffer_of_words hlong hwords, rfl, rfl, rfl, rfl, rfl⟩,
    fun hlong hodd => s.feedBuffer_of_no_words hlong (walkerWords_of_odd hodd)⟩

end Sys2Proof

/-! SUPPORT. The interface invariant: which states meet it, and what a hold does in one that does
(70_reset_and_hazards.md R181, R184). -/

namespace Sys2Proof.Machine

/-- The settle time is positive, so a window that has just been opened is open (R184). -/
theorem tDecode_pos : 0 < Config.tDecode := Nat.succ_pos _

/-- An evaluation settles the ports to the reference function of the word on `opcode_i` (R81, R181). -/
theorem evaluate_eq_drive_refDecode (s : State) : evaluate s = .next (s.drive (refDecode s.opcodeI)) := by
  rw [evaluate_eq_structureOutputs, structureOutputs_eq_refDecode]

/-! The two kinds of state that meet the invariant. -/

theorem State.inv_of_settling {s : State} {e : Nat} (hsettle : s.settle = .settling e) (hopen : e < Config.tDecode) :
    s.Inv where
  settledRight hsettled := by simp [hsettle] at hsettled
  windowOpen elapsed helapsed := by
    obtain rfl : e = elapsed := by simpa [hsettle] using helapsed
    exact hopen

theorem State.inv_of_settled {s : State} (hsettle : s.settle = .settled) (hout : s.out = refDecode s.opcodeI) :
    s.Inv where
  settledRight _ := hout
  windowOpen elapsed helapsed := by simp [hsettle] at helapsed

theorem State.drive_refDecode_inv (s : State) : (s.drive (refDecode s.opcodeI)).Inv :=
  State.inv_of_settled rfl rfl

/-- Driving what settled ports carry already changes nothing. -/
theorem State.drive_out_self {s : State} (hsettle : s.settle = .settled) : s.drive s.out = s := by
  rw [State.drive, ← hsettle]

/-! Changes of the input. -/

/-- A different word opens a new settle window (R184). -/
theorem State.present_settle_of_ne {w : Word} {s : State} (h : w ≠ s.opcodeI) :
    (s.present w).settle = .settling 0 := by
  rw [State.present_change h]

theorem State.accept_of_cons {s : State} {w : Word} {rest : List Word} (h : s.pending = w :: rest) :
    s.accept = State.present w { s with pending := rest } := by
  simp [State.accept, h]

/-- The invariant does not speak of the feed. -/
theorem State.Inv.withPending {s : State} (h : s.Inv) (words : List Word) : ({ s with pending := words } : State).Inv :=
  ⟨h.settledRight, h.windowOpen⟩

theorem State.Inv.present {s : State} (h : s.Inv) (w : Word) : (s.present w).Inv := by
  by_cases hw : w = s.opcodeI
  · rwa [State.present_same hw]
  · exact State.inv_of_settling (State.present_settle_of_ne hw) tDecode_pos

theorem State.Inv.accept {s : State} (h : s.Inv) : s.accept.Inv := by
  cases hpending : s.pending with
  | nil => rwa [State.accept_of_empty hpending]
  | cons w rest =>
    rw [State.accept_of_cons hpending]
    exact (h.withPending rest).present w

/-! The passing of time. -/

/-- Once the settle time has passed since the window opened, the ports carry the reference function (R184). -/
theorem hold_eq_drive_of_settling {s : State} {d e : Nat} (hsettle : s.settle = .settling e)
    (hlong : Config.tDecode ≤ e + d) : hold d s = .next (s.drive (refDecode s.opcodeI)) := by
  rw [hold_long hsettle hlong, evaluate_eq_drive_refDecode]

/-- Under the invariant, holding for the settle time drives the reference function, whatever the settle phase was:
settled ports carry it already. -/
theorem State.Inv.hold_eq_drive {s : State} (h : s.Inv) {d : Nat} (hlong : Config.tDecode ≤ d) :
    hold d s = .next (s.drive (refDecode s.opcodeI)) := by
  cases hsettle : s.settle with
  | settled => rw [hold_settled d hsettle, ← h.settledRight hsettle, State.drive_out_self hsettle]
  | settling e => exact hold_eq_drive_of_settling hsettle (Nat.le_add_left_of_le hlong)

theorem State.Inv.hold {s t : State} (h : s.Inv) {d : Nat} (hhold : hold d s = .next t) : t.Inv := by
  cases hsettle : s.settle with
  | settled =>
    rw [hold_settled d hsettle] at hhold
    cases hhold
    exact h
  | settling e =>
    rcases Nat.lt_or_ge (e + d) Config.tDecode with hshort | hlong
    · rw [hold_short hsettle hshort] at hhold
      cases hhold
      exact State.inv_of_settling rfl hshort
    · rw [hold_eq_drive_of_settling hsettle hlong] at hhold
      cases hhold
      exact s.drive_refDecode_inv

/-- Two holds that reach the settle time together settle the ports: if the first is not long enough, it leaves the
window open at the time it took, and the second ends it (R184). -/
theorem hold_hold_settles {s : State} {d e elapsed : Nat} (hsettle : s.settle = .settling elapsed)
    (hlong : Config.tDecode ≤ elapsed + d + e) :
    ∃ u t, hold d s = .next u ∧ hold e u = .next t ∧
      t.settle = .settled ∧ t.opcodeI = s.opcodeI ∧ t.out = refDecode s.opcodeI := by
  rcases Nat.lt_or_ge (elapsed + d) Config.tDecode with hshort | hfirst
  · exact ⟨_, _, hold_short hsettle hshort, hold_eq_drive_of_settling rfl hlong, rfl, rfl, rfl⟩
  · exact ⟨_, _, hold_eq_drive_of_settling hsettle hfirst, hold_settled e rfl, rfl, rfl, rfl⟩

end Sys2Proof.Machine

namespace Sys2Proof

open Machine

/-- Settles O32: a step ends with the reference function driven; a new word opens a window of 0; a hold keeps settled
ports, leaves the window shorter than the settle time, or ends it with an evaluation. -/
theorem settledOutputsFollowTheInputAtAllTimes : Obligations.SettledOutputsFollowTheInputAtAllTimes := by
  refine ⟨fun s t _ hstep => ?_, fun _ w h => h.present w, fun _ h => h.accept, fun _ _ _ h hhold => h.hold hhold⟩
  rw [step, evaluate_eq_drive_refDecode] at hstep
  cases hstep
  exact s.accept.drive_refDecode_inv

/-- Settles O33: a different word opens a window at 0 elapsed, and a hold ends it or not as it reaches the settle time. -/
theorem outputsSettleWithinTheSettleTime : Obligations.OutputsSettleWithinTheSettleTime := by
  intro s w hw
  have hsettle : (s.present w).settle = .settling 0 := State.present_settle_of_ne hw
  have hword : (s.present w).opcodeI = w := s.present_opcodeI w
  refine ⟨fun d hlong => ?_, fun d hshort => ?_, fun d e hlong => ?_⟩
  · have hhold := (State.inv_of_settling hsettle tDecode_pos).hold_eq_drive hlong
    exact ⟨_, hhold, rfl, hword, congrArg refDecode hword⟩
  · have hhold := hold_short (d := d) hsettle (by rwa [Nat.zero_add])
    exact ⟨_, hhold, congrArg Settle.settling (Nat.zero_add d), hword⟩
  · simpa only [hword] using hold_hold_settles hsettle (by rwa [Nat.zero_add])

/-- Settles O35: both sides drive the reference function of the accepted word on the accepting state, which meets the
invariant. -/
theorem stepIsAcceptingAndHoldingForTheSettleTime : Obligations.StepIsAcceptingAndHoldingForTheSettleTime := by
  intro s d h hlong
  rw [step, evaluate_eq_drive_refDecode, h.accept.hold_eq_drive hlong]

/-- Settles O31: the window that is open at power-up has lasted 0 units, fewer than the settle time. -/
theorem powerUpMeetsTheInterfaceInvariant : Obligations.PowerUpMeetsTheInterfaceInvariant :=
  ⟨State.inv_of_settling rfl tDecode_pos, rfl, rfl⟩

/-- Settles O34: presenting the same word and holding a settled state are each the identity. -/
theorem settledOutputsStayWhileTheInputIsHeld : Obligations.SettledOutputsStayWhileTheInputIsHeld :=
  fun _ hsettle => ⟨State.present_same rfl, fun d => hold_settled d hsettle⟩

end Sys2Proof
